-- ==== Sys2Proof/Word.lean ====
section
/-! DEFINITION. The bit-vector types of the core (00_scope R9): bytes, nibbles and 32-bit words. -/

namespace Sys2Proof

/-- A byte, 8 bits (R9). -/
abbrev Byte := BitVec 8

/-- A nibble, 4 bits (R9); also the number of a grid cell, 0 to 15 (R20). -/
abbrev Nibble := BitVec 4

/-- A word, 32 bits (R9); all word arithmetic wraps modulo 2^32 (R11). -/
abbrev Word := BitVec 32

end Sys2Proof
end

