-- ==== Sys2Proof/Machine/Bits.lean ====
section
/-! DEFINITION. Bit fields, rotations, byte order and nibbles (00_scope R9 to R13; 20_memory R63 to R68). -/

namespace Sys2Proof.Machine

/-- `rotl32(a, n)` (R11): rotate left by `n mod 32`. -/
def rotl32 (a : Word) (n : Nat) : Word := a.rotateLeft n

/-- `rotr32(a, n)` (R11): rotate right by `n mod 32`. -/
def rotr32 (a : Word) (n : Nat) : Word := a.rotateRight n

/-- The amount of a data-dependent rotation, `w & 31` (R11, R136). -/
def rotAmount (w : Word) : Nat := (w &&& 31#32).toNat

/-- `le32(b0, b1, b2, b3)` (R12): four bytes as a little-endian word. -/
def le32 (b0 b1 b2 b3 : Byte) : Word := b3 ++ b2 ++ b1 ++ b0

/-- `bytes_le32(w)` (R12). -/
def bytesLe32 (w : Word) : List Byte :=
  [w.extractLsb' 0 8, w.extractLsb' 8 8, w.extractLsb' 16 8, w.extractLsb' 24 8]

/-- `be32(b0, b1, b2, b3)` (R12): four bytes as a big-endian word. -/
def be32 (b0 b1 b2 b3 : Byte) : Word := b0 ++ b1 ++ b2 ++ b3

/-- `bytes_be32(w)` (R12). -/
def bytesBe32 (w : Word) : List Byte :=
  [w.extractLsb' 24 8, w.extractLsb' 16 8, w.extractLsb' 8 8, w.extractLsb' 0 8]

/-- `bytes_be64(n)` (R12): the eight-byte big-endian form. -/
def bytesBe64 (n : BitVec 64) : List Byte :=
  [n.extractLsb' 56 8, n.extractLsb' 48 8, n.extractLsb' 40 8, n.extractLsb' 32 8,
   n.extractLsb' 24 8, n.extractLsb' 16 8, n.extractLsb' 8 8, n.extractLsb' 0 8]

/-- `hi(b)`, the high nibble of a byte (R13). -/
def hiNib (b : Byte) : Nibble := b.extractLsb' 4 4

/-- `lo(b)`, the low nibble of a byte (R13). -/
def loNib (b : Byte) : Nibble := b.extractLsb' 0 4

/-- `byte(h, l)` (R13). -/
def byteOf (h l : Nibble) : Byte := h ++ l

end Sys2Proof.Machine
end

