-- ==== Sys2Proof/Syntax.lean ====
section
/-! DEFINITION. The instruction set: the thirteen encodings of 30_encoding R87, one constructor each.

A command is taken "as a pair (CW, IN) with |IN| = CW[16:0] by construction" (R89): each constructor carries the
command's input payload `IN`, and the command word's LEN field is its length. There is no other operand (R81): the
selector of AINIT is fixed by the encoding. -/

namespace Sys2Proof

/-- A command of the core with its payload (R87). -/
inductive Instr where
  /-- KEYINIT: build the key schedule from a 16-byte key (R110). -/
  | keyinit (inp : List Byte)
  /-- ENCBLK: encrypt one block (R131). -/
  | encblk (inp : List Byte)
  /-- DECBLK: decrypt one block (R134). -/
  | decblk (inp : List Byte)
  /-- NSINIT: build the nibble permutation table (R151). -/
  | nsinit (inp : List Byte)
  /-- SCRAMBLE: fractionate and regroup a whole buffer (R156). -/
  | scramble (inp : List Byte)
  /-- UNSCRAMBLE: apply the open function UNSCR to a whole buffer (R162). -/
  | unscramble (inp : List Byte)
  /-- AINIT.P: open a primitive session, SEL 0 (R176). -/
  | ainitP (inp : List Byte)
  /-- AINIT.H: open a hybrid session, SEL 1 (R176). -/
  | ainitH (inp : List Byte)
  /-- AINIT.H2: open a hybrid session, SEL 2, the alias of AINIT.H (R175). -/
  | ainitH2 (inp : List Byte)
  /-- XFORM: combine a segment with the keystream (R181). -/
  | xform (inp : List Byte)
  /-- HINIT: start a digest (R201). -/
  | hinit (inp : List Byte)
  /-- HUPDATE: absorb the next piece of the message (R202). -/
  | hupdate (inp : List Byte)
  /-- HFINAL: finish the digest (R206). -/
  | hfinal (inp : List Byte)
  deriving DecidableEq, Repr

/-- The input payload `IN` of a command (R15). -/
def Instr.payload : Instr → List Byte
  | .keyinit inp => inp
  | .encblk inp => inp
  | .decblk inp => inp
  | .nsinit inp => inp
  | .scramble inp => inp
  | .unscramble inp => inp
  | .ainitP inp => inp
  | .ainitH inp => inp
  | .ainitH2 inp => inp
  | .xform inp => inp
  | .hinit inp => inp
  | .hupdate inp => inp
  | .hfinal inp => inp

end Sys2Proof
end

