-- ==== Sys2Proof/WellFormed.lean ====
section
/-! DEFINITION. When a command has an encoding: its payload length fits the 17-bit LEN field (30_encoding R81, R82).
A length the command does not allow is no matter of form: it encodes, decodes and raises the command's length
fault (R90, R91). -/

namespace Sys2Proof

/-- The largest value of the LEN field, `2^17 - 1` (R81). -/
def maxLen : Nat := 131071

/-- A command is well formed when its payload length is a value of the LEN field (R82). -/
def wellFormed (i : Instr) : Bool := decide (i.payload.length ≤ maxLen)

end Sys2Proof
end

