-- ==== Sys2Proof/Decode.lean ====
section
/-! DEFINITION. Framing, decoding and encoding of commands (30_encoding R80 to R93).

`decode` is total on any bytes. It answers `incomplete` while the first frame has not arrived whole, `illegal` for a frame
whose command word is outside the opcode map (R88), and otherwise the command; the last two give the bytes after the
frame, because framing does not depend on legality (R89). The length check and the state precondition of R90 are the
command's own, made when it is performed. -/

namespace Sys2Proof

open Machine

/-- The bits of a command word that tell the commands apart: OP, RSV1, SEL and RSV0 (R87). -/
def cwMask : Word := 0xFFFE0000

/-- `CW[16:0]`, the number of payload bytes that follow (R81). -/
def lenField (cw : Word) : Nat := (cw.extractLsb' 0 17).toNat

/-- The opcode map of R87: each row's match value and its command. -/
def opcodeMap : List (Word × (List Byte → Instr)) :=
  [(0x01000000, .keyinit), (0x02000000, .encblk), (0x03000000, .decblk),
   (0x10000000, .nsinit), (0x11000000, .scramble), (0x12000000, .unscramble),
   (0x20000000, .ainitP), (0x20040000, .ainitH), (0x20080000, .ainitH2), (0x21000000, .xform),
   (0x30000000, .hinit), (0x31000000, .hupdate), (0x32000000, .hfinal)]

/-- The first steps of `decode(CW)` in R90: the row whose match value the masked word equals, if any. -/
def decodeCommand (cw : Word) (inp : List Byte) : Option Instr :=
  (opcodeMap.find? fun row => row.1 == (cw &&& cwMask)).map fun row => row.2 inp

/-- One frame off a byte stream (R80): the command word, its payload, and the bytes after the frame. -/
def takeFrame : List Byte → Option (Word × List Byte × List Byte)
  | b0 :: b1 :: b2 :: b3 :: rest =>
    if lenField (le32 b0 b1 b2 b3) ≤ rest.length then
      some (le32 b0 b1 b2 b3, rest.take (lenField (le32 b0 b1 b2 b3)), rest.drop (lenField (le32 b0 b1 b2 b3)))
    else none
  | _ => none

/-- What the bytes on the command port decode to. -/
inductive Decoded where
  /-- No whole frame has arrived yet: the core waits. -/
  | incomplete
  /-- A frame whose command word is in no row of R87 (R88), and the bytes after it. -/
  | illegal (rest : List Byte)
  /-- A command, and the bytes after its frame. -/
  | command (i : Instr) (rest : List Byte)
  deriving DecidableEq, Repr

/-- The decoder: the first frame of a byte stream (R80, R89, R90). -/
def decode (bytes : List Byte) : Decoded :=
  match takeFrame bytes with
  | none => .incomplete
  | some (cw, inp, rest) =>
    match decodeCommand cw inp with
    | none => .illegal rest
    | some i => .command i rest

/-- The match value of a command's row in R87. -/
def Instr.matchValue : Instr → Word
  | .keyinit _ => 0x01000000
  | .encblk _ => 0x02000000
  | .decblk _ => 0x03000000
  | .nsinit _ => 0x10000000
  | .scramble _ => 0x11000000
  | .unscramble _ => 0x12000000
  | .ainitP _ => 0x20000000
  | .ainitH _ => 0x20040000
  | .ainitH2 _ => 0x20080000
  | .xform _ => 0x21000000
  | .hinit _ => 0x30000000
  | .hupdate _ => 0x31000000
  | .hfinal _ => 0x32000000

/-- The command word of a command (R81): its match value with LEN in bits 16:0. -/
def commandWord (i : Instr) : Word := i.matchValue ||| (BitVec.ofNat 17 i.payload.length).setWidth 32

/-- The frame of a command (R80): the command word, least significant byte first, then the payload. -/
def encode (i : Instr) : List Byte := bytesLe32 (commandWord i) ++ i.payload

/-- The frame whose command word is the low `nbits` bits of `w` and whose payload bytes are all zero. -/
def tableFrame (nbits w : Nat) : List Byte :=
  bytesLe32 (BitVec.ofNat 32 (w % 2 ^ nbits)) ++ List.replicate (lenField (BitVec.ofNat 32 (w % 2 ^ nbits))) 0

/-- What the decoder reads from a command word numbered as the opcode table numbers it, with a payload of zeros. -/
def decodeTableWord (nbits w : Nat) : Option Instr :=
  match decode (tableFrame nbits w) with
  | .command i _ => some i
  | .illegal _ => none
  | .incomplete => none

end Sys2Proof
end

