-- ==== Sys2Proof/Config.lean ====
section
/-! DEFINITION. What an implementation fixes (00_scope R7, R8) and the values the spec leaves open.

`Params` holds the three OPEN parameters that are plain data. The state carries them (field `params`), no step
writes them, and `State.reset` has the spec's defaults: a statement about every state therefore holds for every value of
the parameters, as R8 asks, and a run from reset can still be evaluated (log entry 1).
The open function UNSCR and the contents of storage the spec calls unspecified are opaque constants without a
body: nothing can be proved about their values. -/

namespace Sys2Proof

/-- The model parameters of R7 that are plain data. -/
structure Params where
  /-- First magic constant of the key schedule (R8, D10). -/
  P32 : Word
  /-- Second magic constant of the key schedule (R8, D10). -/
  Q32 : Word
  /-- Largest payload of one command, in bytes (R61, D5). -/
  MAXSEG : Nat
  deriving DecidableEq, Repr

/-- The defaults of R7. -/
def Params.default : Params := { P32 := 0xB7E15163, Q32 := 0x9E3779B9, MAXSEG := 65536 }

/-- Byte `i` of what `UNSCR` makes of a table and a buffer (42 R165, D19): OPEN, under no law (log entry 3). -/
opaque Config.unscrByte (C2V : Vector Nibble 16) (buf : List Byte) (i : Nat) : Byte

/-! The free values: the `n`-th time storage becomes unspecified (R49, R208, R280), register X holds `Config.freeX n` (log
entry 4). -/

opaque Config.freeS : Nat → Vector Word 44
opaque Config.freeC2V : Nat → Vector Nibble 16
opaque Config.freeV2C : Nat → Vector Nibble 16
opaque Config.freeFB : Nat → Vector Byte 16
opaque Config.freeKS : Nat → Vector Byte 16
opaque Config.freeCUR : Nat → Fin 16
opaque Config.freeAVAR : Nat → Bool
opaque Config.freeH : Nat → Vector Word 5
opaque Config.freeHBUF : Nat → Vector Byte 64
opaque Config.freeHBUFN : Nat → Fin 64
opaque Config.freeHLEN : Nat → BitVec 64

end Sys2Proof
end

