-- ==== Sys2Proof/Machine/State.lean ====
section
/-! DEFINITION. The state of the core (10_state R30), with the two ports and the reset input (30_encoding R97, 70 R280),
the reasons a step could stop, and the state after reset (R49). Field names are the spec's register names. -/

namespace Sys2Proof.Machine

/-- HSTATE (R30, R208): whether a digest is in progress. -/
inductive HashState where
  | idle
  | active
  deriving DecidableEq, Repr

/-- The status codes of a response (30_encoding R86). The last four are the spec's faults (60 R250): each ends its
command with a response and stops nothing, so none of them is a `Fault` of this model. -/
inductive Status where
  | ok
  | configurationError
  | lengthError
  | notInitialised
  | illegalCommand
  deriving DecidableEq, Repr

/-- Reasons for which the machine stops: there is none. A fault of the spec is a response and a next state (60 R259,
R261: "a fault does not stop the core, lock it, or change how later commands behave"), and every command
terminates (70 R294). -/
inductive Fault where
  deriving DecidableEq, Repr

/-- Reasons for which the model has no meaning. -/
inductive Refusal where
  /-- Raised by no arm of `exec`: every command has its meaning. Kept because the host's interface names it; safe. -/
  | notModelled (mnemonic : String)
  deriving DecidableEq, Repr

/-- The whole state of the core. -/
structure State where
  /-- The model parameters (R7, R8), written by no step; not state of the spec (log entry 1). -/
  params : Params
  /-- Bytes the host has sent on the command port that the core has not taken, oldest first (R80). -/
  cmdIn : List Byte
  /-- Bytes the core has sent on the response port, oldest first (R85). -/
  respOut : List Byte
  /-- The reset input has been asserted and not yet acted on (R280). -/
  RESET : Bool
  /-- `S[0..43]`, the key schedule (R31). -/
  S : Vector Word 44
  /-- `S` holds a schedule (R32). -/
  KVALID : Bool
  /-- `C2V[0..15]`: the nibble value in each grid cell (R34). -/
  C2V : Vector Nibble 16
  /-- `V2C[0..15]`: the grid cell of each nibble value (R34). -/
  V2C : Vector Nibble 16
  /-- The table is built (R36). -/
  TVALID : Bool
  /-- `FB[0..15]`, the feedback register (R37). -/
  FB : Vector Byte 16
  /-- `KS[0..15]`, the current keystream block (R37). -/
  KS : Vector Byte 16
  /-- The cursor into `KS`, 0 to 15 (R37). -/
  CUR : Fin 16
  /-- The variant of the session: `false` is 0, primitive; `true` is 1, hybrid (R39). -/
  AVAR : Bool
  /-- A session is open (R40). -/
  AVALID : Bool
  /-- `H[0..4]`, the chaining value of the digest (R41). -/
  H : Vector Word 5
  /-- `HBUF[0..63]`, bytes not yet compressed (R41). -/
  HBUF : Vector Byte 64
  /-- How many bytes of `HBUF` are in use, 0 to 63 (R41). -/
  HBUFN : Fin 64
  /-- Bytes absorbed since HINIT (R41). -/
  HLEN : BitVec 64
  /-- Whether a digest is in progress (R208). -/
  HSTATE : HashState
  /-- How often storage has become unspecified: the index of the next free values. The model's own field (log entry 4). -/
  opens : Nat
  deriving DecidableEq, Repr

/-- The machine right after reset (R49): the four flags as the spec gives them, both ports empty, and the value zero in
every register the spec calls unspecified after reset (log entry 2). -/
def State.reset : State where
  params := Params.default
  cmdIn := []
  respOut := []
  RESET := false
  S := Vector.replicate 44 0
  KVALID := false
  C2V := Vector.replicate 16 0
  V2C := Vector.replicate 16 0
  TVALID := false
  FB := Vector.replicate 16 0
  KS := Vector.replicate 16 0
  CUR := 0
  AVAR := false
  AVALID := false
  H := Vector.replicate 5 0
  HBUF := Vector.replicate 64 0
  HBUFN := 0
  HLEN := 0
  HSTATE := .idle
  opens := 0

/-- What performing a command answers. -/
abbrev Result := Host.Outcome State Fault Refusal

end Sys2Proof.Machine
end

