-- ==== Sys2Proof/Machine/Flags.lean ====
section
/-! DEFINITION. The validity flags (10_state R32, R36, R40, R208; 30_encoding R92): the precondition each command tests and the
updates that set or clear a flag together with the storage it guards. -/

namespace Sys2Proof.Machine

/-- The precondition of HUPDATE and HFINAL: `HSTATE = ACTIVE` (R92). -/
def hashActive (s : State) : Bool := s.HSTATE == .active

/-- `S <- T; KVALID <- 1; AVALID <- 0` (R115): a new schedule ends an open session. -/
def State.loadSchedule (T : Vector Word 44) (s : State) : State := { s with S := T, KVALID := true, AVALID := false }

/-- `C2V, V2C <- the new table; TVALID <- 1; AVALID <- 0` (R154): a new table ends an open session. -/
def State.loadTable (c2v v2c : Vector Nibble 16) (s : State) : State :=
  { s with C2V := c2v, V2C := v2c, TVALID := true, AVALID := false }

/-- `CUR <- 0; AVALID <- 1`, the last steps of AINIT (R177): the session is open at the start of its keystream. -/
def State.openSession (s : State) : State := { s with CUR := 0, AVALID := true }

/-- The digest registers in IDLE after HFINAL (R208): `HSTATE <- IDLE`, and `H`, `HBUF`, `HBUFN`, `HLEN` hold values the spec
leaves open, drawn as free values (log entry 4). -/
def State.closeDigest (s : State) : State :=
  { s with
    HSTATE := .idle
    H := Config.freeH s.opens
    HBUF := Config.freeHBUF s.opens
    HBUFN := Config.freeHBUFN s.opens
    HLEN := Config.freeHLEN s.opens
    opens := s.opens + 1 }

end Sys2Proof.Machine
end

