-- ==== Sys2Proof/Machine/Operands.lean ====
section
/-! DEFINITION. The operand forms: the payload as a key, a block, a buffer or a piece of message, and the set of lengths
each command allows (30_encoding R87, R91; 20_memory R63 to R67, R72). -/

namespace Sys2Proof.Machine

/-- "LEN allowed" of KEYINIT, AINIT, ENCBLK and DECBLK: 16 (R91). -/
def lenIsBlock (inp : List Byte) : Bool := inp.length == 16

/-- "LEN allowed" of HINIT and HFINAL: 0 (R91). -/
def lenIsZero (inp : List Byte) : Bool := inp.length == 0

/-- "LEN allowed" of NSINIT, SCRAMBLE, UNSCRAMBLE, XFORM and HUPDATE: 0 to MAXSEG (R91). -/
def lenFits (inp : List Byte) (s : State) : Bool := decide (inp.length ≤ s.params.MAXSEG)

/-- Sixteen payload bytes, starting at index 0, as a block (R71). -/
def blockOf (inp : List Byte) : Vector Byte 16 := Vector.ofFn fun i => inp.getD i.val 0

/-- The four working words of the cipher (R130). -/
structure Words where
  A : Word
  B : Word
  C : Word
  D : Word
  deriving DecidableEq, Repr

/-- `split(X)` (R63, R130): a block as four little-endian words. -/
def split (X : Vector Byte 16) : Words where
  A := le32 X[0] X[1] X[2] X[3]
  B := le32 X[4] X[5] X[6] X[7]
  C := le32 X[8] X[9] X[10] X[11]
  D := le32 X[12] X[13] X[14] X[15]

/-- The bytes of `join(A, B, C, D)` (R63, R130). -/
def joinBytes (w : Words) : List Byte := bytesLe32 w.A ++ bytesLe32 w.B ++ bytesLe32 w.C ++ bytesLe32 w.D

/-- `join(A, B, C, D)` (R130) as a block. -/
def join (w : Words) : Vector Byte 16 := blockOf (joinBytes w)

/-- The key words `L[0..3]` of sixteen key bytes, loaded little-endian (R64, R113). -/
def keyWords (inp : List Byte) : Vector Word 4 :=
  Vector.ofFn fun j =>
    le32 (inp.getD (4 * j.val) 0) (inp.getD (4 * j.val + 1) 0) (inp.getD (4 * j.val + 2) 0) (inp.getD (4 * j.val + 3) 0)

/-- The nibbles of a data buffer, high nibble first in each byte (R67, R157). -/
def dataNibbles (inp : List Byte) : List Nibble := inp.flatMap fun b => [hiNib b, loNib b]

/-- The nibbles of scrambler key bytes in scan order, low nibble first in each byte (R67, R152). -/
def keyNibbles (inp : List Byte) : List Nibble := inp.flatMap fun b => [loNib b, hiNib b]

/-- Output nibbles packed into bytes, high nibble first (R67, R159). -/
def packNibbles : List Nibble → List Byte
  | h :: l :: rest => byteOf h l :: packNibbles rest
  | _ => []

/-- Bytewise exclusive or of two byte sequences of one length, `OUT[i] <- xor8(X[i], Y[i])` (R182). -/
def xorBytes (X Y : List Byte) : List Byte := List.zipWith (fun x y => x ^^^ y) X Y

end Sys2Proof.Machine
end

