-- ==== Sys2Proof/Machine/Ops.lean ====
section
/-! DEFINITION. The operations every command shares: the ports, answering a command, raising a fault, the checks of a
command in their order, and the reset input. The core has no memory (20_memory R60): the two payloads are its only data spaces. -/

namespace Sys2Proof.Machine

/-- The STATUS code of a response (30_encoding R86). -/
def Status.code : Status → Byte
  | .ok => 0x00
  | .configurationError => 0x01
  | .lengthError => 0x02
  | .notInitialised => 0x03
  | .illegalCommand => 0x04

/-- The response word (R85): STATUS in bits 31:24, zeros, RLEN in bits 16:0. -/
def responseWord (st : Status) (rlen : Nat) : Word := st.code ++ 0#7 ++ BitVec.ofNat 17 rlen

/-- A response frame (R85): the response word, least significant byte first, then the output payload. -/
def responseFrame (st : Status) (out : List Byte) : List Byte := bytesLe32 (responseWord st out.length) ++ out

/-- The core sends one response frame (R85). -/
def State.emit (st : Status) (out : List Byte) (s : State) : State :=
  { s with respOut := s.respOut ++ responseFrame st out }

/-- The bytes left on the command port once a frame has been taken (R80, R89). -/
def State.withCmdIn (rest : List Byte) (s : State) : State := { s with cmdIn := rest }

/-- `Respond(OUT)` (R16): the command ends with status OK. -/
def respond (out : List Byte) (s : State) : Result := .next (s.emit .ok out)

/-- `raise F` (R16, 60 R259): TAKING A FAULT. The response carries the status code and an empty payload and no other state is
written; the core then takes the next command. There is no handler and no return from a fault (R260), so no
operation stands beside this one. -/
def raise (f : Status) (s : State) : Result := .next (s.emit f [])

/-- The checks of a command in the order of R90 and R258: its length, which raises the command's length fault, then its state
precondition, which raises NotInitialised; then the command is performed. -/
def guarded (lenOk : Bool) (lenFault : Status) (ready : Bool) (perform : State → Result) (s : State) : Result :=
  if lenOk then (if ready then perform s else raise .notInitialised s) else raise lenFault s

/-- The reset input (70 R280): the four flags cleared, every other register unspecified (free values, log entry 4), both streams
restarted at a frame boundary (log entry 6). The parameters are no state and stay. -/
def State.applyReset (s : State) : State where
  params := s.params
  cmdIn := []
  respOut := []
  RESET := false
  S := Config.freeS s.opens
  KVALID := false
  C2V := Config.freeC2V s.opens
  V2C := Config.freeV2C s.opens
  TVALID := false
  FB := Config.freeFB s.opens
  KS := Config.freeKS s.opens
  CUR := Config.freeCUR s.opens
  AVAR := Config.freeAVAR s.opens
  AVALID := false
  H := Config.freeH s.opens
  HBUF := Config.freeHBUF s.opens
  HBUFN := Config.freeHBUFN s.opens
  HLEN := Config.freeHLEN s.opens
  HSTATE := .idle
  opens := s.opens + 1

/-! What the host can do between steps (R97, R280). No step calls these. -/

/-- The host sends bytes on the command port (R80). -/
def State.hostSends (bytes : List Byte) (s : State) : State := { s with cmdIn := s.cmdIn ++ bytes }

/-- The host asserts the reset input (R280). -/
def State.hostAssertsReset (s : State) : State := { s with RESET := true }

end Sys2Proof.Machine
end

