-- ==== Sys2Proof/Machine/BlockCipher.lean ====
section
/-! DEFINITION. BlockCipher: the key schedule (40_key_schedule), the block transforms (41_block_cipher), and the commands
KEYINIT, ENCBLK and DECBLK. -/

namespace Sys2Proof.Machine

/-! ### Key schedule -/

/-- The table before mixing, filled up to index `i` (R113): `T[0] <- P32`, then `T[i] <- add32(T[i-1], Q32)`. -/
def fillTable (P32 Q32 : Word) : Nat → Vector Word 44
  | 0 => Vector.replicate 44 P32
  | i + 1 =>
    let T := fillTable P32 Q32 i
    T.setIfInBounds (i + 1) (T.getD i 0 + Q32)

/-- The locals of the mixing loop (R114). -/
structure Mixing where
  T : Vector Word 44
  L : Vector Word 4
  A : Word
  B : Word
  i : Fin 44
  j : Fin 4
  deriving DecidableEq, Repr

/-- One turn of the mixing loop (R114). The second assignment reads the new `A` and the old `B`. -/
def mixStep (m : Mixing) : Mixing :=
  let A := rotl32 (m.T[m.i] + m.A + m.B) 3
  let B := rotl32 (m.L[m.j] + A + m.B) (rotAmount (A + m.B))
  { T := m.T.set m.i A, L := m.L.set m.j B, A := A, B := B, i := m.i + 1, j := m.j + 1 }

/-- `n` turns of the mixing loop. -/
def mixTurns : Nat → Mixing → Mixing
  | 0, m => m
  | n + 1, m => mixTurns n (mixStep m)

/-- The state of the loop before its first turn (R113, R114). -/
def mixStart (P32 Q32 : Word) (key : List Byte) : Mixing :=
  { T := fillTable P32 Q32 43, L := keyWords key, A := 0, B := 0, i := 0, j := 0 }

/-- The key schedule of sixteen key bytes (R113, R114): the table after 132 turns. -/
@[irreducible] def keySchedule (P32 Q32 : Word) (key : List Byte) : Vector Word 44 := (mixTurns 132 (mixStart P32 Q32 key)).T

/-- The steps of KEYINIT on a 16-byte key (R113 to R115). -/
def keySteps (key : List Byte) (s : State) : State := s.loadSchedule (keySchedule s.params.P32 s.params.Q32 key)

/-- KEYINIT (R110, R112, R115, R116). -/
def execKeyinit (inp : List Byte) (s : State) : Result :=
  guarded (lenIsBlock inp) .configurationError true (fun s => respond [] (keySteps inp s)) s

/-! ### Block transforms -/

/-- `S[n]`; the rules read indices 0 to 43 only (R31). -/
def subkey (S : Vector Word 44) (n : Nat) : Word := S.getD n 0

/-- The quadratic term `q(x) = x·(2x+1)` (R136). -/
def quadTerm (x : Word) : Word := x * (2 * x + 1)

/-- `rotateLeft(q(x), 5)`, the `t` of `B` and the `u` of `D` in a round (R132, R135). -/
def roundTerm (x : Word) : Word := rotl32 (quadTerm x) 5

/-- Round `i` of the encryption, register rotation included (R132). -/
def encRound (S : Vector Word 44) (i : Nat) (w : Words) : Words :=
  let t := roundTerm w.B
  let u := roundTerm w.D
  let A := rotl32 (w.A ^^^ t) (rotAmount u) + subkey S (2 * i)
  let C := rotl32 (w.C ^^^ u) (rotAmount t) + subkey S (2 * i + 1)
  { A := w.B, B := C, C := w.D, D := A }

/-- Rounds 1 to `n` of the encryption, in that order. -/
def encRounds (S : Vector Word 44) : Nat → Words → Words
  | 0, w => w
  | n + 1, w => encRound S (n + 1) (encRounds S n w)

/-- `E_S` on the four words (R132). -/
@[irreducible] def encWords (S : Vector Word 44) (w : Words) : Words :=
  let w := encRounds S 20 { w with B := w.B + subkey S 0, D := w.D + subkey S 1 }
  { w with A := w.A + subkey S 42, C := w.C + subkey S 43 }

/-- `E_S(X)` (R132). -/
def encBlock (S : Vector Word 44) (X : Vector Byte 16) : Vector Byte 16 := join (encWords S (split X))

/-- Round `i` of the decryption: the register rotation is undone, then subtract, rotate right, xor (R135). -/
def decRound (S : Vector Word 44) (i : Nat) (w : Words) : Words :=
  let w : Words := { A := w.D, B := w.A, C := w.B, D := w.C }
  let u := roundTerm w.D
  let t := roundTerm w.B
  let C := rotr32 (w.C - subkey S (2 * i + 1)) (rotAmount t) ^^^ u
  let A := rotr32 (w.A - subkey S (2 * i)) (rotAmount u) ^^^ t
  { w with A := A, C := C }

/-- Rounds `n` down to 1 of the decryption. -/
def decRounds (S : Vector Word 44) : Nat → Words → Words
  | 0, w => w
  | n + 1, w => decRounds S n (decRound S (n + 1) w)

/-- `D_S` on the four words (R135). -/
@[irreducible] def decWords (S : Vector Word 44) (w : Words) : Words :=
  let w := decRounds S 20 { w with C := w.C - subkey S 43, A := w.A - subkey S 42 }
  { w with D := w.D - subkey S 1, B := w.B - subkey S 0 }

/-- `D_S(X)` (R135). -/
def decBlock (S : Vector Word 44) (X : Vector Byte 16) : Vector Byte 16 := join (decWords S (split X))

/-- ENCBLK (R131, R133). -/
def execEncblk (inp : List Byte) (s : State) : Result :=
  guarded (lenIsBlock inp) .lengthError s.KVALID (fun s => respond (encBlock s.S (blockOf inp)).toList s) s

/-- DECBLK (R134, R138). -/
def execDecblk (inp : List Byte) (s : State) : Result :=
  guarded (lenIsBlock inp) .lengthError s.KVALID (fun s => respond (decBlock s.S (blockOf inp)).toList s) s

end Sys2Proof.Machine
end

