-- ==== Sys2Proof/Machine/Scrambler.lean ====
section
/-! DEFINITION. NibbleScrambler: the permutation table, fractionation and regrouping (42_nibble_scrambler), and the commands
NSINIT, SCRAMBLE and UNSCRAMBLE. -/

namespace Sys2Proof.Machine

/-! ### The table -/

/-- One turn of a scan of R152. The list holds the values seen so far in cell order: `seen[v]` is membership, `n` its length. -/
def seeNibble (order : List Nibble) (v : Nibble) : List Nibble := if v ∈ order then order else order ++ [v]

/-- The sixteen nibble values in ascending order, the second scan of R152. -/
def ascending : List Nibble := [0, 1, 2, 3, 4, 5, 6, 7, 8, 9, 10, 11, 12, 13, 14, 15]

/-- The values in cell order after both scans of R152: the key's nibbles, then the values 0 to 15. -/
def cellOrder (key : List Byte) : List Nibble := (keyNibbles key ++ ascending).foldl seeNibble []

/-- `NC2V` of R152: the value assigned to each cell. -/
def tableC2V (key : List Byte) : Vector Nibble 16 := Vector.ofFn fun k => (cellOrder key).getD k.val 0

/-- `NV2C` of R152: the cell each value was assigned to. -/
def tableV2C (key : List Byte) : Vector Nibble 16 :=
  Vector.ofFn fun v => BitVec.ofNat 4 ((cellOrder key).idxOf (BitVec.ofNat 4 v.val))

/-- The steps of NSINIT (R152, R154). -/
def tableSteps (key : List Byte) (s : State) : State := s.loadTable (tableC2V key) (tableV2C key)

/-- NSINIT (R151, R154). -/
def execNsinit (inp : List Byte) (s : State) : Result :=
  guarded (lenFits inp s) .lengthError true (fun s => respond [] (tableSteps inp s)) s

/-! ### SCRAMBLE -/

/-- A coordinate of the grid, 0 to 3 (R150). -/
abbrev Coord := BitVec 2

/-- `row(v)`: the upper two bits of `V2C[v]` (R34, R150). -/
def rowOf (V2C : Vector Nibble 16) (v : Nibble) : Coord := (V2C[v.toNat]).extractLsb' 2 2

/-- `col(v)`: the lower two bits of `V2C[v]` (R34, R150). -/
def colOf (V2C : Vector Nibble 16) (v : Nibble) : Coord := (V2C[v.toNat]).extractLsb' 0 2

/-- `val(r, c) = C2V[4r + c]` (R150). -/
def valAt (C2V : Vector Nibble 16) (r c : Coord) : Nibble := C2V[(r ++ c : Nibble).toNat]

/-- The combined sequence (R157, R158): all row coordinates, then all column coordinates. -/
def combined (V2C : Vector Nibble 16) (x : List Nibble) : List Coord := x.map (rowOf V2C) ++ x.map (colOf V2C)

/-- Reconstruction (R159): each output nibble consumes two elements of the combined sequence; where fewer than two remain the
input nibble at the same position passes through, which R160 shows never happens. -/
def regroup (C2V : Vector Nibble 16) : List Coord → List Nibble → List Nibble
  | r :: c :: comb, _ :: x => valAt C2V r c :: regroup C2V comb x
  | _, x => x

/-- `SCR(IN)` (R157 to R161). -/
def scr (C2V V2C : Vector Nibble 16) (inp : List Byte) : List Byte :=
  packNibbles (regroup C2V (combined V2C (dataNibbles inp)) (dataNibbles inp))

/-- SCRAMBLE (R156, R161). -/
def execScramble (inp : List Byte) (s : State) : Result :=
  guarded (lenFits inp s) .lengthError s.TVALID (fun s => respond (scr s.C2V s.V2C inp) s) s

/-! ### UNSCRAMBLE -/

/-- `UNSCR(C2V, IN)` (R165): as many bytes as the buffer has, each an open function of the table and the buffer. Every
length-preserving function of the two is of this form. -/
def unscr (C2V : Vector Nibble 16) (inp : List Byte) : List Byte :=
  (List.range inp.length).map (Config.unscrByte C2V inp)

/-- UNSCRAMBLE (R162). -/
def execUnscramble (inp : List Byte) (s : State) : Result :=
  guarded (lenFits inp s) .lengthError s.TVALID (fun s => respond (unscr s.C2V inp) s) s

end Sys2Proof.Machine
end

