-- ==== Sys2Proof/Machine/Adapter.lean ====
section
/-! DEFINITION. StreamCipherAdapter: the output-feedback keystream in both variants (43_ofb_adapter), and the commands AINIT.P,
AINIT.H, AINIT.H2 and XFORM. -/

namespace Sys2Proof.Machine

/-- `IV(S)` (R65, R178): the first four schedule words as bytes, each little-endian. -/
def ivOf (S : Vector Word 44) : Vector Byte 16 := join { A := S[0], B := S[1], C := S[2], D := S[3] }

/-- Refill (R179): `FB <- E_S(FB); KS <- FB`. -/
def State.refill (s : State) : State := { s with FB := encBlock s.S s.FB, KS := encBlock s.S s.FB }

/-- One turn of the loop of `NextKS` (R180): the byte at the cursor, with a refill once the sixteenth is taken. -/
def State.takeByte (s : State) : Byte × State :=
  (s.KS[s.CUR], if s.CUR = 15 then { s.refill with CUR := 0 } else { s with CUR := s.CUR + 1 })

/-- `NextKS(count)` (R180): the next `count` keystream bytes, and the state after. -/
def State.nextKS : Nat → State → List Byte × State
  | 0, s => ([], s)
  | n + 1, s => (s.takeByte.1 :: (nextKS n s.takeByte.2).1, (nextKS n s.takeByte.2).2)

/-- Steps 3 to 7 of AINIT (R177). -/
def startSession (hybrid : Bool) (s : State) : State := ({ s with AVAR := hybrid, FB := ivOf s.S }).refill.openSession

/-- The steps of AINIT with SEL 0 (R177): the table and TVALID are neither read nor written. -/
def primitiveSteps (key : List Byte) (s : State) : State := startSession false (keySteps key s)

/-- The steps of AINIT with SEL 1 or 2 (R177): the same sixteen bytes key the scrambler. -/
def hybridSteps (key : List Byte) (s : State) : State := startSession true (tableSteps key (keySteps key s))

/-- AINIT.P (R176, R177). -/
def execAinitP (inp : List Byte) (s : State) : Result :=
  guarded (lenIsBlock inp) .configurationError true (fun s => respond [] (primitiveSteps inp s)) s

/-- AINIT.H (R176, R177). -/
def execAinitH (inp : List Byte) (s : State) : Result :=
  guarded (lenIsBlock inp) .configurationError true (fun s => respond [] (hybridSteps inp s)) s

/-- AINIT.H2 (R175 to R177): the third selector value, routed to the hybrid variant too. -/
def execAinitH2 (inp : List Byte) (s : State) : Result :=
  guarded (lenIsBlock inp) .configurationError true (fun s => respond [] (hybridSteps inp s)) s

/-- What a session XORs into the data: the raw keystream segment `Y` (R182) or, for the hybrid variant, `SCR(Y)` (R183). -/
def maskOf (s : State) (Y : List Byte) : List Byte := if s.AVAR then scr s.C2V s.V2C Y else Y

/-- The keystream part and the output part of XFORM (R182, R183). -/
def xformSteps (inp : List Byte) (s : State) : Result :=
  respond (xorBytes inp (maskOf s (s.nextKS inp.length).1)) (s.nextKS inp.length).2

/-- XFORM (R181 to R184). -/
def execXform (inp : List Byte) (s : State) : Result :=
  guarded (lenFits inp s) .lengthError s.AVALID (xformSteps inp) s

end Sys2Proof.Machine
end

