-- ==== Sys2Proof/Machine/Hasher.lean ====
section
/-! DEFINITION. IntegrityHasher: SHA-1 in streaming mode (44_sha1), and the commands HINIT, HUPDATE and HFINAL. -/

namespace Sys2Proof.Machine

/-- HMAXLEN of 00_scope R7: the largest message length in bytes the hash accepts (R209, D22). -/
def hmaxlen : Nat := 2 ^ 61 - 1

/-- The chaining value HINIT starts from (R201). -/
def hashInit : Vector Word 5 := #v[0x67452301, 0xEFCDAB89, 0x98BADCFE, 0x10325476, 0xC3D2E1F0]

/-- `W[0..16)` of a block (R204): big-endian words. -/
def blockWords (M : Vector Byte 64) : List Word :=
  (List.range 16).map fun t =>
    be32 (M.getD (4 * t) 0) (M.getD (4 * t + 1) 0) (M.getD (4 * t + 2) 0) (M.getD (4 * t + 3) 0)

/-- `W[0..16+k)` (R204). -/
def extendWords (W16 : List Word) : Nat → List Word
  | 0 => W16
  | k + 1 =>
    let W := extendWords W16 k
    let t := 16 + k
    W ++ [rotl32 ((W.getD (t - 3) 0 ^^^ W.getD (t - 8) 0) ^^^ (W.getD (t - 14) 0 ^^^ W.getD (t - 16) 0)) 1]

/-- The round function `f(t, b, c, d)` (R205). -/
def hashF (t : Nat) (b c d : Word) : Word :=
  if t < 20 then (b &&& c) ||| (~~~b &&& d)
  else if t < 40 then b ^^^ c ^^^ d
  else if t < 60 then ((b &&& c) ||| (b &&& d)) ||| (c &&& d)
  else b ^^^ c ^^^ d

/-- The round constant `K(t)` (R205). -/
def hashK (t : Nat) : Word :=
  if t < 20 then 0x5A827999 else if t < 40 then 0x6ED9EBA1 else if t < 60 then 0x8F1BBCDC else 0xCA62C1D6

/-- The working words `a` to `e` of the compression (R204). -/
structure HashWords where
  a : Word
  b : Word
  c : Word
  d : Word
  e : Word
  deriving DecidableEq, Repr

/-- Step `t` of the compression (R204) with message word `Wt`. -/
def hashStep (t : Nat) (Wt : Word) (v : HashWords) : HashWords :=
  let T := rotl32 v.a 5 + hashF t v.b v.c v.d + v.e + hashK t + Wt
  { a := T, b := v.a, c := rotl32 v.b 30, d := v.c, e := v.d }

/-- Steps 0 to `n - 1` of the compression (R204). -/
def hashSteps (W : List Word) : Nat → HashWords → HashWords
  | 0, v => v
  | n + 1, v => hashStep n (W.getD n 0) (hashSteps W n v)

/-- `Compress(M)` (R204): the new chaining value. -/
@[irreducible] def compress (H : Vector Word 5) (M : Vector Byte 64) : Vector Word 5 :=
  let v := hashSteps (extendWords (blockWords M) 64) 80 { a := H[0], b := H[1], c := H[2], d := H[3], e := H[4] }
  #v[H[0] + v.a, H[1] + v.b, H[2] + v.c, H[3] + v.d, H[4] + v.e]

/-- The registers absorbing works on (R203). -/
structure HashBuffer where
  H : Vector Word 5
  HBUF : Vector Byte 64
  HBUFN : Fin 64
  deriving DecidableEq, Repr

/-- One turn of the absorbing loop (R203). -/
def absorbByte (r : HashBuffer) (b : Byte) : HashBuffer :=
  let HBUF := r.HBUF.set r.HBUFN b
  if r.HBUFN = 63 then { H := compress r.H HBUF, HBUF := HBUF, HBUFN := 0 }
  else { H := r.H, HBUF := HBUF, HBUFN := r.HBUFN + 1 }

/-- The absorbing loop (R203) on the registers. -/
def absorbAll (bytes : List Byte) (r : HashBuffer) : HashBuffer := bytes.foldl absorbByte r

/-- The hasher's buffer registers. -/
def State.hashBuffer (s : State) : HashBuffer := { H := s.H, HBUF := s.HBUF, HBUFN := s.HBUFN }

/-- Absorbing a byte sequence (R203), without the count in `HLEN`. -/
def State.absorb (bytes : List Byte) (s : State) : State :=
  { s with
    H := (absorbAll bytes s.hashBuffer).H
    HBUF := (absorbAll bytes s.hashBuffer).HBUF
    HBUFN := (absorbAll bytes s.hashBuffer).HBUFN }

/-- HINIT (R201). -/
def execHinit (inp : List Byte) (s : State) : Result :=
  guarded (lenIsZero inp) .lengthError true
    (fun s => respond [] { s with H := hashInit, HLEN := 0, HBUFN := 0, HSTATE := .active }) s

/-- What HUPDATE does once its length and `HSTATE` have been checked: the message limit (R202, R209), then absorbing and
counting (R203). -/
def updateSteps (inp : List Byte) (s : State) : Result :=
  if s.HLEN.toNat + inp.length > hmaxlen then raise .lengthError s
  else respond [] { s.absorb inp with HLEN := s.HLEN + BitVec.ofNat 64 inp.length }

/-- HUPDATE (R202, R203). -/
def execHupdate (inp : List Byte) (s : State) : Result :=
  guarded (lenFits inp s) .lengthError (hashActive s) (updateSteps inp) s

/-- PAD (R206): 0x80, `(55 - HBUFN) mod 64` zero bytes, and the message length in bits, big-endian. -/
def padding (HBUFN : Fin 64) (HLEN : BitVec 64) : List Byte :=
  [0x80] ++ List.replicate ((55 + 64 - HBUFN.val) % 64) 0 ++ bytesBe64 (8 * HLEN)

/-- The digest as bytes, `bytes_be32(H[0])` to `bytes_be32(H[4])` (R66, R206). -/
def digestBytes (H : Vector Word 5) : List Byte :=
  bytesBe32 H[0] ++ bytesBe32 H[1] ++ bytesBe32 H[2] ++ bytesBe32 H[3] ++ bytesBe32 H[4]

/-- The steps of HFINAL (R206, R208). -/
def finalSteps (s : State) : Result :=
  respond (digestBytes (s.absorb (padding s.HBUFN s.HLEN)).H) s.closeDigest

/-- HFINAL (R206). -/
def execHfinal (inp : List Byte) (s : State) : Result :=
  guarded (lenIsZero inp) .lengthError (hashActive s) finalSteps s

end Sys2Proof.Machine
end

