-- ==== Sys2Proof/Machine/Dispatch.lean ====
section
/-! DEFINITION. Performing a command: one arm per row of the opcode map (30_encoding R87). -/

namespace Sys2Proof.Machine

-- The order is the opcode map's.
def exec (i : Instr) (s : State) : Host.Outcome State Fault Refusal :=
  match i with
  | .keyinit inp => Sys2Proof.Machine.execKeyinit inp s
  | .encblk inp => Sys2Proof.Machine.execEncblk inp s
  | .decblk inp => Sys2Proof.Machine.execDecblk inp s
  | .nsinit inp => Sys2Proof.Machine.execNsinit inp s
  | .scramble inp => Sys2Proof.Machine.execScramble inp s
  | .unscramble inp => Sys2Proof.Machine.execUnscramble inp s
  | .ainitP inp => Sys2Proof.Machine.execAinitP inp s
  | .ainitH inp => Sys2Proof.Machine.execAinitH inp s
  | .ainitH2 inp => Sys2Proof.Machine.execAinitH2 inp s
  | .xform inp => Sys2Proof.Machine.execXform inp s
  | .hinit inp => Sys2Proof.Machine.execHinit inp s
  | .hupdate inp => Sys2Proof.Machine.execHupdate inp s
  | .hfinal inp => Sys2Proof.Machine.execHfinal inp s

end Sys2Proof.Machine
end

