-- ==== Sys2Proof/Machine/Step.lean ====
section
/-! DEFINITION. One step of the core: the reset input, one whole command (20_memory R70, R73), or waiting for a command.
The core has no program counter and no instruction memory (10_state R46): the next instruction is the next frame on the
command port. -/

namespace Sys2Proof.Machine

/-- One step. An asserted reset input is acted on first (70 R280). Otherwise the first frame on the command port is taken and
performed (R73), an illegal one raising IllegalCommand (30 R88, R89); with no whole frame there the core waits and keeps all
its state (60 R267). -/
def step (s : State) : Host.Outcome State Fault Refusal :=
  if s.RESET then .next s.applyReset
  else
    match decode s.cmdIn with
    | .incomplete => .next s
    | .illegal rest => raise .illegalCommand (s.withCmdIn rest)
    | .command i rest => exec i (s.withCmdIn rest)

/-- `s` with one frame on the command port and the reset input not asserted: the low `nbits` bits of `w` as the command word
and a payload of zeros. -/
def State.withFetchWord (s : State) (nbits w : Nat) : State := { s with RESET := false, cmdIn := tableFrame nbits w }

end Sys2Proof.Machine
end

