-- ==== Sys2Proof/Machine/Pipeline.lean ====
section
/-! DEFINITION. The host's command sequences that encrypt and decrypt a stream (45_pipeline R230 to R240), and its rendering and
comparison of digests (44_sha1 R210). No step of the core calls these: the host plays the EncryptionEngine (R230). They perform
commands with `exec`; the frames the commands travel in are those of `encode` and `step` (log entry 11). -/

namespace Sys2Proof.Machine

/-- How a host's sequence stands after some of its commands. -/
inductive Reply (α : Type) where
  /-- Every answer so far was OK: what the host has gathered from the answers, and the core's state. -/
  | ok (value : α) (s : State)
  /-- A command answered this status, which is not OK. The error propagates and aborts the sequence (R232), and `s` is the state in which
  the faulting command left the core. -/
  | aborted (status : Byte) (s : State)
  /-- The model has no meaning for a command of the sequence. No command is refused (log entry 9). -/
  | refused (r : Refusal)
  deriving DecidableEq, Repr

/-- The next part of a sequence, run in the state the first part left. An abort propagates through it (R232). -/
def Reply.andThen {α β : Type} (r : Reply α) (f : α → State → Reply β) : Reply β :=
  match r with
  | .ok value s => f value s
  | .aborted status s => .aborted status s
  | .refused r => .refused r

/-- The STATUS byte of the response frame that stands in the response stream after the first `sent` bytes (30_encoding R85). -/
def answerStatus (sent : Nat) (t : State) : Byte := (t.respOut.drop sent).getD 3 0

/-- The host performs one command and reads the response frame (30_encoding R85): the output payload where the status is OK. -/
def State.ask (i : Instr) (s : State) : Reply (List Byte) :=
  match exec i s with
  | .next t =>
    if answerStatus s.respOut.length t = Status.ok.code then .ok (t.respOut.drop (s.respOut.length + 4)) t
    else .aborted (answerStatus s.respOut.length t) t
  | .fault r => nomatch r
  | .refused r => .refused r

/-- One command for each of several payloads, in order: the output payloads one after another. -/
def State.askEach (f : List Byte → Instr) : List (List Byte) → State → Reply (List Byte)
  | [], s => .ok [] s
  | x :: xs, s =>
    (s.ask (f x)).andThen fun y t => (State.askEach f xs t).andThen fun ys u => .ok (y ++ ys) u

/-- The algorithm selector the caller chooses (30_encoding R83). -/
inductive Selector where
  | p
  | h
  | h2
  deriving DecidableEq, Repr

/-- The variant of a selector (R175): the third is the second's alias. -/
def Selector.hybrid : Selector → Bool
  | .p => false
  | .h => true
  | .h2 => true

/-- `AINIT.sel K` (R232). -/
def Selector.ainit (sel : Selector) (key : List Byte) : Instr :=
  match sel with
  | .p => .ainitP key
  | .h => .ainitH key
  | .h2 => .ainitH2 key

/-- CHUNK of 00_scope R7, in bytes (R234). -/
def chunkSize : Nat := 65536

/-- A stream cut at the multiples of the chunk size (R232, R234): no chunk for an empty stream (R237). -/
def chunks (X : List Byte) : List (List Byte) :=
  (List.range ((X.length + (chunkSize - 1)) / chunkSize)).map fun j => (X.drop (chunkSize * j)).take chunkSize

/-- A stream cut as the host's reads return it (R235). Each element of `reads` is what one of the first reads returns, at most a chunk,
and the host sends that piece, short or not, as one XFORM; from there on every read returns a whole chunk. With no element this is
the standard host of R232 and R233. -/
def cuts : List Nat → List Byte → List (List Byte)
  | [], X => chunks X
  | n :: reads, X => X.take (min n chunkSize) :: cuts reads (X.drop (min n chunkSize))

/-- Steps 1 to 3 of the encrypt sequence (R232): the digest of the plaintext, in pieces of any cut. -/
def hashPass (pieces : List (List Byte)) (s : State) : Reply (List Byte) :=
  (s.ask (.hinit [])).andThen fun _ s =>
  (s.askEach .hupdate pieces).andThen fun _ s =>
  s.ask (.hfinal [])

/-- The encrypt sequence (R232) by a host whose reads return `reads` (R235): the digest of the plaintext, which the host hashes in the
given pieces, and the ciphertext. -/
def encryptSequence (sel : Selector) (key : List Byte) (pieces : List (List Byte)) (reads : List Nat) (s : State) :
    Reply (List Byte × List Byte) :=
  (hashPass pieces s).andThen fun digest s =>
  (s.ask (sel.ainit key)).andThen fun _ s =>
  (s.askEach .xform (cuts reads pieces.flatten)).andThen fun Y s =>
  .ok (digest, Y) s

/-- The loop of the decrypt sequence (R233): each segment is transformed back and fed into the digest. -/
def decryptChunks : List (List Byte) → State → Reply (List Byte)
  | [], s => .ok [] s
  | y :: ys, s =>
    (s.ask (.xform y)).andThen fun x s =>
    (s.ask (.hupdate x)).andThen fun _ s =>
    (decryptChunks ys s).andThen fun xs s =>
    .ok (x ++ xs) s

/-- The decrypt sequence (R233) by a host whose reads return `reads` (R235): the digest of the recovered plaintext, and the
plaintext. -/
def decryptSequence (sel : Selector) (key Q : List Byte) (reads : List Nat) (s : State) : Reply (List Byte × List Byte) :=
  (s.ask (sel.ainit key)).andThen fun _ s =>
  (s.ask (.hinit [])).andThen fun _ s =>
  (decryptChunks (cuts reads Q) s).andThen fun X s =>
  (s.ask (.hfinal [])).andThen fun digest s =>
  .ok (digest, X) s

/-- A hexadecimal digit, in lower case (R210). -/
def hexDigit (n : Nibble) : Char :=
  ['0', '1', '2', '3', '4', '5', '6', '7', '8', '9', 'a', 'b', 'c', 'd', 'e', 'f'].getD n.toNat '0'

/-- The hexadecimal text of a digest (R210): two digits a byte, high nibble first. -/
def hexText (digest : List Byte) : List Char := digest.flatMap fun b => [hexDigit (hiNib b), hexDigit (loNib b)]

/-- The host's verdict (R236): the stored text and the digest's compared without regard to case. -/
def hashValid (stored : List Char) (digest : List Byte) : Bool :=
  stored.map Char.toLower == (hexText digest).map Char.toLower

end Sys2Proof.Machine
end

