-- ==== Sys2Proof/Safety.lean ====
section
/-! DEFINITION. The terms claims use: the invariants of 10_state R32, R35, R36, R38 and R42, the digest of a whole message
(44_sha1 R207), runs of XFORM commands (43 R185), and which storage a state makes visible (10_state R49). -/

namespace Sys2Proof

/-- The commands of the hasher (R50). -/
def Instr.isHash : Instr → Bool
  | .hinit _ => true
  | .hupdate _ => true
  | .hfinal _ => true
  | .keyinit _ => false
  | .encblk _ => false
  | .decblk _ => false
  | .nsinit _ => false
  | .scramble _ => false
  | .unscramble _ => false
  | .ainitP _ => false
  | .ainitH _ => false
  | .ainitH2 _ => false
  | .xform _ => false

/-- The commands that open a session (R176). -/
def Instr.isAinit : Instr → Bool
  | .ainitP _ => true
  | .ainitH _ => true
  | .ainitH2 _ => true
  | .keyinit _ => false
  | .encblk _ => false
  | .decblk _ => false
  | .nsinit _ => false
  | .scramble _ => false
  | .unscramble _ => false
  | .xform _ => false
  | .hinit _ => false
  | .hupdate _ => false
  | .hfinal _ => false

/-- What a command adds to the message being hashed (R202): the payload of HUPDATE. -/
def Instr.messagePiece : Instr → List Byte
  | .hupdate inp => inp
  | .keyinit _ => []
  | .encblk _ => []
  | .decblk _ => []
  | .nsinit _ => []
  | .scramble _ => []
  | .unscramble _ => []
  | .ainitP _ => []
  | .ainitH _ => []
  | .ainitH2 _ => []
  | .xform _ => []
  | .hinit _ => []
  | .hfinal _ => []

end Sys2Proof

namespace Sys2Proof.Machine

/-! ### Invariants -/

/-- `S` is a schedule KEYINIT could have built (R32, R117). -/
def KeyInv (s : State) : Prop :=
  s.KVALID = true → ∃ key : List Byte, key.length = 16 ∧ s.S = keySchedule s.params.P32 s.params.Q32 key

/-- The two arrays are a bijection and its inverse (R35). -/
def IsTable (C2V V2C : Vector Nibble 16) : Prop :=
  (∀ k : Fin 16, (V2C[(C2V[k]).toNat]).toNat = k.val) ∧ (∀ v : Fin 16, (C2V[(V2C[v]).toNat]).toNat = v.val)

/-- The table is one while TVALID is set (R35). -/
def TableInv (s : State) : Prop := s.TVALID = true → IsTable s.C2V s.V2C

/-- Keystream block number `n` of a session under schedule `S`: `KS_n = E^n(IV)` (R178, R179). -/
def keystreamBlock (S : Vector Word 44) (n : Nat) : Vector Byte 16 := (encBlock S)^[n] (ivOf S)

/-- Keystream block `j` counted from the block in `KS` (R179): block 0 is `KS` itself, block `j` the `j`-th encryption of `FB`. -/
def State.blockAhead (s : State) (j : Nat) : Vector Byte 16 := if j = 0 then s.KS else (encBlock s.S)^[j] s.FB

/-- The next `n` keystream bytes, read off the blocks by position (R180): byte `i` is byte `(CUR + i) mod 16` of block
`(CUR + i) div 16`. -/
def State.keystreamAhead (s : State) (n : Nat) : List Byte :=
  (List.range n).map fun i => (s.blockAhead ((s.CUR.val + i) / 16)).getD ((s.CUR.val + i) % 16) 0

/-- The adapter while a session is open (R38): `FB = KS`, a keystream block number at least 1 of the schedule in force; and
the storage the session reads is valid (R177, R183). -/
def AdapterInv (s : State) : Prop :=
  s.AVALID = true →
    s.FB = s.KS ∧ (∃ n, s.KS = keystreamBlock s.S (n + 1)) ∧ s.KVALID = true ∧ (s.AVAR = true → s.TVALID = true)

/-! ### Digests of whole messages -/

/-- The first 64 bytes of a sequence as a hash block. -/
def hashBlockOf (m : List Byte) : Vector Byte 64 := Vector.ofFn fun i => m.getD i.val 0

/-- The chaining value after the first `n` 64-byte blocks of a message (R204). -/
def chain : Nat → Vector Word 5 → List Byte → Vector Word 5
  | 0, H, _ => H
  | n + 1, H, m => chain n (compress H (hashBlockOf m)) (m.drop 64)

/-- The buffer registers are what absorbing exactly `msg` after HINIT leaves (R42, R203). -/
def Buffered (msg : List Byte) (r : HashBuffer) : Prop :=
  r.HBUFN.val = msg.length % 64 ∧ r.H = chain (msg.length / 64) hashInit msg ∧
    ∀ i : Fin 64, i.val < msg.length % 64 → r.HBUF[i] = msg.getD (64 * (msg.length / 64) + i.val) 0

/-- The hasher has absorbed exactly `msg` since HINIT, and counted it (R42). -/
def Absorbed (msg : List Byte) (s : State) : Prop := s.HLEN.toNat = msg.length ∧ Buffered msg s.hashBuffer

/-- The hasher while a digest is in progress (R42). -/
def HasherInv (s : State) : Prop := s.HSTATE = .active → s.HLEN.toNat ≤ hmaxlen ∧ ∃ msg, Absorbed msg s

/-- The message padded as SHA-1 prescribes (R206), from its length alone. -/
def sha1Padded (msg : List Byte) : List Byte :=
  msg ++ [0x80] ++ List.replicate ((119 - msg.length % 64) % 64) 0 ++ bytesBe64 (BitVec.ofNat 64 (8 * msg.length))

/-- `SHA1(msg)` in one piece (R204 to R207): every block of the padded message compressed in turn. -/
def sha1 (msg : List Byte) : List Byte :=
  digestBytes (chain ((sha1Padded msg).length / 64) hashInit (sha1Padded msg))

/-- The invariant of the core. -/
def Inv (s : State) : Prop := KeyInv s ∧ TableInv s ∧ AdapterInv s ∧ HasherInv s

/-! ### Nibbles of a buffer -/

/-- Nibble `q` of a data buffer (R157): the high nibble of byte `q / 2` for even `q`, the low one for odd `q`. -/
def nibbleAt (X : List Byte) (q : Nat) : Nibble :=
  if q % 2 = 0 then hiNib (X.getD (q / 2) 0) else loNib (X.getD (q / 2) 0)

/-! ### Runs -/

/-- Performing the commands in order leads from `s` to `t`. -/
def RunTo : State → List Instr → State → Prop
  | s, [], t => s = t
  | s, i :: cmds, t => ∃ u, exec i s = .next u ∧ RunTo u cmds t

/-- The command ends with status OK, the payload `out` and the state `t`. -/
def AnswersOk (i : Instr) (s : State) (out : List Byte) (t : State) : Prop :=
  exec i s = .next t ∧ t.respOut = s.respOut ++ responseFrame .ok out

/-- XFORM commands with the payloads `ins`, in order, return the payloads `outs`. -/
def XformRun : State → List (List Byte) → List (List Byte) → State → Prop
  | s, [], [], t => s = t
  | s, x :: ins, y :: outs, t => ∃ u, AnswersOk (.xform x) s y u ∧ XformRun u ins outs t
  | _, _, _, _ => False

/-! ### What a state makes visible -/

/-- The hasher's registers that a command in ACTIVE state reads agree (R42: `HBUF` below `HBUFN` only). -/
def SameDigest (s t : State) : Prop :=
  s.H = t.H ∧ s.HBUFN = t.HBUFN ∧ s.HLEN = t.HLEN ∧ ∀ i : Fin 64, i.val < s.HBUFN.val → s.HBUF[i] = t.HBUF[i]

/-- Two states with the same parameters, ports and flags that agree on all storage whose validity flag is set (R49). -/
def SameVisible (s t : State) : Prop :=
  s.params = t.params ∧ s.cmdIn = t.cmdIn ∧ s.respOut = t.respOut ∧ s.RESET = t.RESET ∧
    s.KVALID = t.KVALID ∧ s.TVALID = t.TVALID ∧ s.AVALID = t.AVALID ∧ s.HSTATE = t.HSTATE ∧
    (s.KVALID = true → s.S = t.S) ∧ (s.TVALID = true → s.C2V = t.C2V ∧ s.V2C = t.V2C) ∧
    (s.AVALID = true → s.FB = t.FB ∧ s.KS = t.KS ∧ s.CUR = t.CUR ∧ s.AVAR = t.AVAR) ∧
    (s.HSTATE = .active → SameDigest s t)

/-- The registers of the hasher agree (R50). -/
def SameHasher (s t : State) : Prop :=
  s.H = t.H ∧ s.HBUF = t.HBUF ∧ s.HBUFN = t.HBUFN ∧ s.HLEN = t.HLEN ∧ s.HSTATE = t.HSTATE

/-- The registers of the BlockCipher, the NibbleScrambler and the adapter agree (R50). -/
def SameCipher (s t : State) : Prop :=
  s.S = t.S ∧ s.KVALID = t.KVALID ∧ s.C2V = t.C2V ∧ s.V2C = t.V2C ∧ s.TVALID = t.TVALID ∧
    s.FB = t.FB ∧ s.KS = t.KS ∧ s.CUR = t.CUR ∧ s.AVAR = t.AVAR ∧ s.AVALID = t.AVALID

end Sys2Proof.Machine
end

