-- ==== Sys2Proof/Certificates/Slice0/Obligations.lean ====
section
/-! DEFINITION. The statements for the provers. Each says in its docstring which rules of spec/ it formalises.
In the Lean of a statement `{ s with … }` is the whole next state: every register not named keeps its value. -/

open Sys2Proof Sys2Proof.Machine

/-! ### Encoding and fetching -/

/-- Every well-formed command, with any payload the LEN field can count, decodes from its own frame, and the bytes after the frame
are left over (30 R80, R81, R87, R89). -/
def Obligations.EncodeThenDecode : Prop :=
  ∀ (i : Instr) (rest : List Byte), wellFormed i = true → decode (encode i ++ rest) = .command i rest

/-- A stream that decodes to a command starts with that command's own frame: no two frames mean the same command (30 R80, R87). -/
def Obligations.DecodeThenEncode : Prop :=
  ∀ (bytes : List Byte) (i : Instr) (rest : List Byte), decode bytes = .command i rest →
    wellFormed i = true ∧ bytes = encode i ++ rest

/-- 30 R88: which command words are illegal, by match value and by field, and that an illegal command is answered with
IllegalCommand and changes no state. -/
def Obligations.IllegalCommandsAreAnswered : Prop :=
  let illegal (cw : Word) : Prop :=
    cw &&& 0xFFFE0000#32 ∉
      [0x01000000#32, 0x02000000#32, 0x03000000#32, 0x10000000#32, 0x11000000#32, 0x12000000#32, 0x20000000#32,
       0x20040000#32, 0x20080000#32, 0x21000000#32, 0x30000000#32, 0x31000000#32, 0x32000000#32]
  (∀ cw : Word, illegal cw ↔
    cw.extractLsb' 24 8 ∉ [0x01#8, 0x02#8, 0x03#8, 0x10#8, 0x11#8, 0x12#8, 0x20#8, 0x21#8, 0x30#8, 0x31#8, 0x32#8] ∨
    cw.extractLsb' 20 4 ≠ 0#4 ∨ cw.extractLsb' 17 1 ≠ 0#1 ∨
    (cw.extractLsb' 18 2 ≠ 0#2 ∧ cw.extractLsb' 24 8 ≠ 0x20#8) ∨
    (cw.extractLsb' 18 2 = 3#2 ∧ cw.extractLsb' 24 8 = 0x20#8)) ∧
  ∀ (s : State) (b0 b1 b2 b3 : Byte) (inp rest : List Byte), s.RESET = false →
    s.cmdIn = b0 :: b1 :: b2 :: b3 :: (inp ++ rest) → illegal (b3 ++ b2 ++ b1 ++ b0) →
    inp.length = ((b3 ++ b2 ++ b1 ++ b0 : Word).extractLsb' 0 17).toNat →
    step s = .next { s with cmdIn := rest, respOut := s.respOut ++ [0x00, 0x00, 0x00, 0x04] }

/-- A step runs the decoded command: when the bytes on the command port decode to a command and the reset input is not asserted,
`step` is `exec` of that command in the state whose command port holds the bytes after the frame (20 R70, R73; 30 R89). -/
def Obligations.StepRunsDecodedInstruction : Prop :=
  ∀ (s : State) (i : Instr) (rest : List Byte), s.RESET = false → wellFormed i = true →
    decode s.cmdIn = .command i rest → step s = exec i { s with cmdIn := rest }

/-- Some of the command frames of 95 §2.1 decode to the commands they stand for (30 R81, R87, R96). -/
def Obligations.WordsDecodeAsListed : Prop :=
  decode [0x10, 0x00, 0x00, 0x01, 0, 1, 2, 3, 4, 5, 6, 7, 8, 9, 10, 11, 12, 13, 14, 15] =
      .command (.keyinit [0, 1, 2, 3, 4, 5, 6, 7, 8, 9, 10, 11, 12, 13, 14, 15]) [] ∧
    decode [0x04, 0x00, 0x00, 0x11, 0xde, 0xad, 0xbe, 0xef] = .command (.scramble [0xde, 0xad, 0xbe, 0xef]) [] ∧
    decode [0x10, 0x00, 0x08, 0x20, 0, 1, 2, 3, 4, 5, 6, 7, 8, 9, 10, 11, 12, 13, 14, 15] =
      .command (.ainitH2 [0, 1, 2, 3, 4, 5, 6, 7, 8, 9, 10, 11, 12, 13, 14, 15]) [] ∧
    decode [0x00, 0x00, 0x00, 0x32] = .command (.hfinal []) [] ∧
    decode [0x03, 0x00, 0x00, 0x7f, 0xaa, 0xbb, 0xcc] = .illegal []

/-- With no whole frame on the command port the core waits and keeps all its state (60 R267; that waiting is a step is the model's
choice, log entry 5). -/
def Obligations.WaitsForWholeFrame : Prop :=
  ∀ s : State, s.RESET = false →
    (s.cmdIn.length < 4 ∨ ∃ (b0 b1 b2 b3 : Byte) (tail : List Byte), s.cmdIn = b0 :: b1 :: b2 :: b3 :: tail ∧
      tail.length < ((b3 ++ b2 ++ b1 ++ b0 : Word).extractLsb' 0 17).toNat) →
    step s = .next s

/-- The bytes of a response frame (30 R85, R86): RLEN in the low 17 bits, the status code in the fourth byte, then the payload. -/
def Obligations.ResponseFrameBytes : Prop :=
  ∀ (st : Status) (out : List Byte), out.length ≤ 131071 →
    responseFrame st out =
      [BitVec.ofNat 8 out.length, BitVec.ofNat 8 (out.length / 256), BitVec.ofNat 8 (out.length / 65536),
       match st with
       | .ok => 0x00
       | .configurationError => 0x01
       | .lengthError => 0x02
       | .notInitialised => 0x03
       | .illegalCommand => 0x04] ++ out

/-! ### Faults -/

/-- The core never stops: every step from every state answers a next state. A step that performs a command or answers an illegal
one rests on 60 R261 and 70 R294 (no fault stops the core, log entry 9), a step that waits on 60 R267 (that waiting is a step is
the model's choice, log entry 5), and a step that acts on the reset input on 70 R280 (that it is one step is the model's choice,
log entry 6). -/
def Obligations.CoreNeverStops : Prop := ∀ s : State, ∃ t : State, step s = .next t

/-- 60 R259: a step that takes a frame, legal or not, consumes that frame and emits exactly one response frame; a command that
faults answers with an empty payload and leaves everything but the two ports as it was. -/
def Obligations.FaultsWriteNothing : Prop :=
  ∀ (s : State) (cw : Word) (inp rest : List Byte), s.RESET = false → takeFrame s.cmdIn = some (cw, inp, rest) →
    ∃ (st : Status) (out : List Byte) (t : State), step s = .next t ∧ t.cmdIn = rest ∧
      t.respOut = s.respOut ++ responseFrame st out ∧
      (st ≠ .ok → out = [] ∧ t = { s with cmdIn := rest, respOut := s.respOut ++ responseFrame st [] })

/-- 60 R251: a command answers ConfigurationError exactly when it is KEYINIT or an AINIT and its length is not 16. -/
def Obligations.ConfigurationErrorIsWrongKeyLength : Prop :=
  ∀ (i : Instr) (s t : State), exec i s = .next t →
    ((∃ out, t.respOut = s.respOut ++ responseFrame .configurationError out) ↔
      match i with
      | .keyinit inp => inp.length ≠ 16
      | .ainitP inp => inp.length ≠ 16
      | .ainitH inp => inp.length ≠ 16
      | .ainitH2 inp => inp.length ≠ 16
      | _ => False)

/-- 60 R252: a command answers LengthError exactly when its length is outside the set it allows and it is not KEYINIT or AINIT, or
when it is HUPDATE and the message would exceed HMAXLEN (which is tested last, 60 R258). -/
def Obligations.LengthErrorIsWrongLength : Prop :=
  ∀ (i : Instr) (s t : State), exec i s = .next t →
    ((∃ out, t.respOut = s.respOut ++ responseFrame .lengthError out) ↔
      match i with
      | .encblk inp => inp.length ≠ 16
      | .decblk inp => inp.length ≠ 16
      | .nsinit inp => s.params.MAXSEG < inp.length
      | .scramble inp => s.params.MAXSEG < inp.length
      | .unscramble inp => s.params.MAXSEG < inp.length
      | .xform inp => s.params.MAXSEG < inp.length
      | .hinit inp => inp.length ≠ 0
      | .hupdate inp =>
        s.params.MAXSEG < inp.length ∨ (s.HSTATE = .active ∧ 2 ^ 61 - 1 < s.HLEN.toNat + inp.length)
      | .hfinal inp => inp.length ≠ 0
      | _ => False)

/-- 30 R92: a command answers NotInitialised exactly when its length is allowed and the state it needs is not there; KEYINIT,
NSINIT, AINIT and HINIT never do. -/
def Obligations.NotInitialisedIsMissingState : Prop :=
  ∀ (i : Instr) (s t : State), exec i s = .next t →
    ((∃ out, t.respOut = s.respOut ++ responseFrame .notInitialised out) ↔
      match i with
      | .encblk inp => inp.length = 16 ∧ s.KVALID = false
      | .decblk inp => inp.length = 16 ∧ s.KVALID = false
      | .scramble inp => inp.length ≤ s.params.MAXSEG ∧ s.TVALID = false
      | .unscramble inp => inp.length ≤ s.params.MAXSEG ∧ s.TVALID = false
      | .xform inp => inp.length ≤ s.params.MAXSEG ∧ s.AVALID = false
      | .hupdate inp => inp.length ≤ s.params.MAXSEG ∧ s.HSTATE = .idle
      | .hfinal inp => inp.length = 0 ∧ s.HSTATE = .idle
      | _ => False)

/-- 44 R209: HUPDATE raises LengthError, and absorbs nothing, when the message would exceed HMAXLEN. -/
def Obligations.HupdateRefusesOverlongMessage : Prop :=
  ∀ (s : State) (inp : List Byte), inp.length ≤ s.params.MAXSEG → s.HSTATE = .active →
    2 ^ 61 - 1 < s.HLEN.toNat + inp.length →
    exec (.hupdate inp) s = .next { s with respOut := s.respOut ++ [0x00, 0x00, 0x00, 0x02] }

/-! ### BlockCipher -/

/-- KEYINIT with a 16-byte key writes S, KVALID and AVALID, nothing else, and answers OK with an empty payload (40 R115, R116). -/
def Obligations.KeyinitBuildsSchedule : Prop :=
  ∀ (s : State) (key : List Byte), key.length = 16 →
    exec (.keyinit key) s =
      .next { s with
        S := keySchedule s.params.P32 s.params.Q32 key, KVALID := true, AVALID := false
        respOut := s.respOut ++ [0x00, 0x00, 0x00, 0x00] }

/-- 40 R113: the key words, little-endian, and the table before mixing, `T[i] = (P32 + i·Q32) mod 2^32`, for every value of the
two constants. -/
def Obligations.KeyScheduleStart : Prop :=
  ∀ (P32 Q32 : Word) (key : List Byte), key.length = 16 →
    (∀ j : Fin 4, ((mixStart P32 Q32 key).L[j]).toNat =
      (key.getD (4 * j.val) 0).toNat + 2 ^ 8 * (key.getD (4 * j.val + 1) 0).toNat +
        2 ^ 16 * (key.getD (4 * j.val + 2) 0).toNat + 2 ^ 24 * (key.getD (4 * j.val + 3) 0).toNat) ∧
    ∀ i : Fin 44, ((mixStart P32 Q32 key).T[i]).toNat = (P32.toNat + i.val * Q32.toNat) % 2 ^ 32

/-- 40 R114: the 132 mixing steps written as sequences. Step `k` works on table word `k mod 44` and key word `k mod 4`, the second
running sum uses the new first one, and the schedule is the table after step 131. -/
def Obligations.KeyScheduleMixing : Prop :=
  ∀ (P32 Q32 : Word) (key : List Byte), ∃ (T L : Nat → Nat → Word) (A B : Nat → Word),
    (∀ i : Fin 44, T 0 i.val = (mixStart P32 Q32 key).T[i]) ∧ (∀ j : Fin 4, L 0 j.val = (mixStart P32 Q32 key).L[j]) ∧
    A 0 = 0 ∧ B 0 = 0 ∧
    (∀ k, k < 132 →
      A (k + 1) = rotl32 (T k (k % 44) + A k + B k) 3 ∧
      B (k + 1) = rotl32 (L k (k % 4) + A (k + 1) + B k) ((A (k + 1) + B k).toNat % 32) ∧
      (∀ i, T (k + 1) i = if i = k % 44 then A (k + 1) else T k i) ∧
      (∀ j, L (k + 1) j = if j = k % 4 then B (k + 1) else L k j)) ∧
    ∀ i : Fin 44, (keySchedule P32 Q32 key)[i] = T 132 i.val

/-- ENCBLK of 16 bytes under a valid schedule answers OK with the encrypted block and writes no state (41 R131, R133, R140). -/
def Obligations.EncblkReturnsCiphertext : Prop :=
  ∀ (s : State) (inp : List Byte), inp.length = 16 → s.KVALID = true →
    exec (.encblk inp) s =
      .next { s with respOut := s.respOut ++ ([0x10, 0x00, 0x00, 0x00] ++ (encBlock s.S (blockOf inp)).toList) }

/-- DECBLK of 16 bytes under a valid schedule answers OK with the decrypted block and writes no state (41 R134, R138, R140). -/
def Obligations.DecblkReturnsPlaintext : Prop :=
  ∀ (s : State) (inp : List Byte), inp.length = 16 → s.KVALID = true →
    exec (.decblk inp) s =
      .next { s with respOut := s.respOut ++ ([0x10, 0x00, 0x00, 0x00] ++ (decBlock s.S (blockOf inp)).toList) }

/-- 41 R132: the encryption written as sequences of the four registers. `A i` is register A after round `i`, its rotation
included. -/
def Obligations.EncryptionRounds : Prop :=
  ∀ (S : Vector Word 44) (X : Vector Byte 16), ∃ A B C D t u : Nat → Word,
    A 0 = X[3] ++ X[2] ++ X[1] ++ X[0] ∧ B 0 = (X[7] ++ X[6] ++ X[5] ++ X[4] : Word) + S[0] ∧
    C 0 = X[11] ++ X[10] ++ X[9] ++ X[8] ∧ D 0 = (X[15] ++ X[14] ++ X[13] ++ X[12] : Word) + S[1] ∧
    (∀ i, 1 ≤ i → i ≤ 20 →
      t i = rotl32 (B (i - 1) * (2 * B (i - 1) + 1)) 5 ∧
      u i = rotl32 (D (i - 1) * (2 * D (i - 1) + 1)) 5 ∧
      A i = B (i - 1) ∧
      B i = rotl32 (C (i - 1) ^^^ u i) ((t i).toNat % 32) + S.getD (2 * i + 1) 0 ∧
      C i = D (i - 1) ∧
      D i = rotl32 (A (i - 1) ^^^ t i) ((u i).toNat % 32) + S.getD (2 * i) 0) ∧
    (encBlock S X).toList =
      bytesLe32 (A 20 + S[42]) ++ bytesLe32 (B 20) ++ bytesLe32 (C 20 + S[43]) ++ bytesLe32 (D 20)

/-- Decryption inverts encryption and encryption inverts decryption, for every table of 44 words and every block: 41 R137, which
the spec derives from R132, R135 and 00 R11. -/
def Obligations.DecryptionInvertsEncryption : Prop :=
  ∀ (S : Vector Word 44) (X : Vector Byte 16),
    decBlock S (encBlock S X) = X ∧ encBlock S (decBlock S X) = X

/-- 41 R130: a block as four little-endian words and back. -/
def Obligations.BlockWordsRoundTrip : Prop :=
  (∀ X : Vector Byte 16,
    split X =
      { A := X[3] ++ X[2] ++ X[1] ++ X[0], B := X[7] ++ X[6] ++ X[5] ++ X[4]
        C := X[11] ++ X[10] ++ X[9] ++ X[8], D := X[15] ++ X[14] ++ X[13] ++ X[12] }) ∧
  (∀ w : Words, (join w).toList = bytesLe32 w.A ++ bytesLe32 w.B ++ bytesLe32 w.C ++ bytesLe32 w.D) ∧
  (∀ X : Vector Byte 16, join (split X) = X)

/-- The rotations of 00 R11: the two formulas, with an amount of 0 modulo 32 leaving the word unchanged, and that a right rotation
undoes a left one. -/
def Obligations.RotationLaws : Prop :=
  ∀ (a : Word) (n : Nat),
    rotl32 a n = (if n % 32 = 0 then a else (a <<< (n % 32)) ||| (a >>> (32 - n % 32))) ∧
    rotr32 a n = (if n % 32 = 0 then a else (a >>> (n % 32)) ||| (a <<< (32 - n % 32))) ∧
    rotr32 (rotl32 a n) n = a

/-! ### NibbleScrambler -/

/-- NSINIT with at most MAXSEG bytes writes the table, TVALID and AVALID, nothing else, and answers OK with an empty payload (42
R151, R154). -/
def Obligations.NsinitBuildsTable : Prop :=
  ∀ (s : State) (key : List Byte), key.length ≤ s.params.MAXSEG →
    exec (.nsinit key) s =
      .next { s with
        C2V := tableC2V key, V2C := tableV2C key, TVALID := true, AVALID := false
        respOut := s.respOut ++ [0x00, 0x00, 0x00, 0x00] }

/-- Whatever the key bytes, the two arrays of the table are permutations of 0 to 15 and inverse to each other: 42 R153, which the
spec derives from R152. -/
def Obligations.TableIsBijection : Prop :=
  ∀ key : List Byte,
    (∀ k : Fin 16, (tableV2C key)[(tableC2V key)[k].toNat] = BitVec.ofNat 4 k.val) ∧
    (∀ v : Fin 16, (tableC2V key)[(tableV2C key)[v].toNat] = BitVec.ofNat 4 v.val)

/-- The order of the cells (42 R152): of two values the one that occurs first in the scan, low nibble before high nibble of each
key byte and then 0 to 15 ascending, has the lower cell. -/
def Obligations.TableFollowsFirstOccurrence : Prop :=
  ∀ (key : List Byte) (u v : Fin 16),
    let scan : List Nibble :=
      key.flatMap (fun b => [b.extractLsb' 0 4, b.extractLsb' 4 4]) ++ (List.range 16).map (BitVec.ofNat 4)
    (tableV2C key)[u].toNat < (tableV2C key)[v].toNat ↔
      scan.idxOf (BitVec.ofNat 4 u.val) < scan.idxOf (BitVec.ofNat 4 v.val)

/-- Once all sixteen values have been seen, further key bytes change nothing: 42 R155 (b), which the spec derives from R152. -/
def Obligations.KeyBytesPastAllNibblesIgnored : Prop :=
  ∀ X Y : List Byte, (∀ v : Nibble, ∃ b ∈ X, b.extractLsb' 0 4 = v ∨ b.extractLsb' 4 4 = v) →
    tableC2V (X ++ Y) = tableC2V X ∧ tableV2C (X ++ Y) = tableV2C X

/-- SCRAMBLE of at most MAXSEG bytes under a valid table answers OK with `SCR(IN)` and writes no state (42 R156, R161). -/
def Obligations.ScrambleReturnsRegrouping : Prop :=
  ∀ (s : State) (inp : List Byte), inp.length ≤ s.params.MAXSEG → s.TVALID = true →
    exec (.scramble inp) s = .next { s with respOut := s.respOut ++ responseFrame .ok (scr s.C2V s.V2C inp) }

/-- The closed form of SCRAMBLE: 42 R163, which the spec derives from R157 to R160. With `m = 2n` nibbles, output nibble `q` is
the value at a pair of rows while `2q + 1 < m` and at a pair of columns afterwards; the output has `n` bytes. -/
def Obligations.ScrambleClosedForm : Prop :=
  ∀ (C2V V2C : Vector Nibble 16) (inp : List Byte),
    (scr C2V V2C inp).length = inp.length ∧
    ∀ q, q < 2 * inp.length →
      nibbleAt (scr C2V V2C inp) q =
        if 2 * q + 1 < 2 * inp.length then
          valAt C2V (rowOf V2C (nibbleAt inp (2 * q))) (rowOf V2C (nibbleAt inp (2 * q + 1)))
        else
          valAt C2V (colOf V2C (nibbleAt inp (2 * q - 2 * inp.length)))
            (colOf V2C (nibbleAt inp (2 * q - 2 * inp.length + 1)))

/-- For every valid table SCRAMBLE is a bijection on the buffers of each length: 42 R164, which the spec derives from R150 and
R157 to R159. -/
def Obligations.ScrambleIsBijective : Prop :=
  ∀ C2V V2C : Vector Nibble 16, IsTable C2V V2C →
    (∀ X Y : List Byte, X.length = Y.length → scr C2V V2C X = scr C2V V2C Y → X = Y) ∧
    (∀ Y : List Byte, ∃ X : List Byte, X.length = Y.length ∧ scr C2V V2C X = Y)

/-- UNSCRAMBLE of at most MAXSEG bytes under a valid table answers OK with as many bytes, which depend on the table `C2V` and the
buffer alone, and writes no state (42 R162, R165). Nothing is said of the bytes: UNSCR is open. -/
def Obligations.UnscrambleKeepsLength : Prop :=
  ∀ (C2V : Vector Nibble 16) (inp : List Byte), ∃ out : List Byte, out.length = inp.length ∧
    ∀ s : State, s.C2V = C2V → inp.length ≤ s.params.MAXSEG → s.TVALID = true →
      exec (.unscramble inp) s = .next { s with respOut := s.respOut ++ responseFrame .ok out }

/-! ### StreamCipherAdapter -/

/-- AINIT.P with a 16-byte key (43 R177 to R179): the schedule of the key, the first keystream block `E_S(IV(S))` in FB and KS
with the cursor at 0, a primitive session open, and the table and TVALID untouched. -/
def Obligations.AinitPrimitiveOpensSession : Prop :=
  ∀ (s : State) (key : List Byte), key.length = 16 →
    let S := keySchedule s.params.P32 s.params.Q32 key
    exec (.ainitP key) s =
      .next { s with
        S := S, KVALID := true, AVAR := false, AVALID := true, CUR := 0
        FB := encBlock S (join { A := S[0], B := S[1], C := S[2], D := S[3] })
        KS := encBlock S (join { A := S[0], B := S[1], C := S[2], D := S[3] })
        respOut := s.respOut ++ [0x00, 0x00, 0x00, 0x00] }

/-- AINIT.H and AINIT.H2 with a 16-byte key (43 R175, R177 to R179): as AINIT.P, and also the table of the same sixteen bytes; the
two leave the same state. -/
def Obligations.AinitHybridOpensSession : Prop :=
  ∀ (s : State) (key : List Byte), key.length = 16 →
    let S := keySchedule s.params.P32 s.params.Q32 key
    let opened : State :=
      { s with
        S := S, KVALID := true, AVAR := true, AVALID := true, CUR := 0
        C2V := tableC2V key, V2C := tableV2C key, TVALID := true
        FB := encBlock S (join { A := S[0], B := S[1], C := S[2], D := S[3] })
        KS := encBlock S (join { A := S[0], B := S[1], C := S[2], D := S[3] })
        respOut := s.respOut ++ [0x00, 0x00, 0x00, 0x00] }
    exec (.ainitH key) s = .next opened ∧ exec (.ainitH2 key) s = .next opened

/-- XFORM in a primitive session (43 R180, R182): output byte `i` is input byte `i` XOR keystream byte `CUR + i`, the cursor moves
on by the length, FB and KS are the blocks it has reached, and nothing else changes. -/
def Obligations.XformPrimitiveXorsKeystream : Prop :=
  ∀ (s : State) (inp : List Byte), inp.length ≤ s.params.MAXSEG → s.AVALID = true → s.AVAR = false →
    exec (.xform inp) s =
      .next { s with
        CUR := Fin.ofNat 16 (s.CUR.val + inp.length)
        FB := (encBlock s.S)^[(s.CUR.val + inp.length) / 16] s.FB
        KS := s.blockAhead ((s.CUR.val + inp.length) / 16)
        respOut := s.respOut ++
          responseFrame .ok (List.zipWith (fun x y => x ^^^ y) inp (s.keystreamAhead inp.length)) }

/-- XFORM in a hybrid session (43 R180, R183): as in a primitive session, but the whole raw keystream segment is scrambled before
it is XORed into the data. -/
def Obligations.XformHybridXorsScrambledKeystream : Prop :=
  ∀ (s : State) (inp : List Byte), inp.length ≤ s.params.MAXSEG → s.AVALID = true → s.AVAR = true →
    exec (.xform inp) s =
      .next { s with
        CUR := Fin.ofNat 16 (s.CUR.val + inp.length)
        FB := (encBlock s.S)^[(s.CUR.val + inp.length) / 16] s.FB
        KS := s.blockAhead ((s.CUR.val + inp.length) / 16)
        respOut := s.respOut ++
          responseFrame .ok
            (List.zipWith (fun x y => x ^^^ y) inp (scr s.C2V s.V2C (s.keystreamAhead inp.length))) }

/-- One XFORM and its inverse (43 R185, which the spec derives from R182 and R183): if XFORM of `inp` returns `out`, XFORM of
`out` in the same state returns `inp` and leaves the same state but for the response. -/
def Obligations.XformIsSymmetric : Prop :=
  ∀ (s t : State) (inp out : List Byte), AnswersOk (.xform inp) s out t →
    AnswersOk (.xform out) s inp { t with respOut := s.respOut ++ responseFrame .ok inp }

/-- In a primitive session it does not matter where the data is cut (43 R186, which the spec derives from R180 and R182). -/
def Obligations.XformPrimitiveIgnoresCuts : Prop :=
  ∀ (s t u : State) (X Y x y : List Byte), s.AVAR = false → X.length + Y.length ≤ s.params.MAXSEG →
    AnswersOk (.xform X) s x t → AnswersOk (.xform Y) t y u →
    AnswersOk (.xform (X ++ Y)) s (x ++ y) { u with respOut := s.respOut ++ responseFrame .ok (x ++ y) }

/-- Two sessions under one key and one variant (43 R185, which the spec derives from R182 and R183): the second, sent the outputs
of the first with the same cuts, returns the first's inputs. AINIT.H and AINIT.H2 are one variant. -/
def Obligations.SessionRoundTrip : Prop :=
  ∀ (s s' t t' e : State) (key : List Byte) (ins outs : List (List Byte)),
    key.length = 16 → s.params = s'.params →
    ((exec (.ainitP key) s = .next t ∧ exec (.ainitP key) s' = .next t') ∨
      ((exec (.ainitH key) s = .next t ∨ exec (.ainitH2 key) s = .next t) ∧
        (exec (.ainitH key) s' = .next t' ∨ exec (.ainitH2 key) s' = .next t'))) →
    XformRun t ins outs e → ∃ e' : State, XformRun t' outs ins e'

/-- 70 R287: a successful KEYINIT or NSINIT clears AVALID, and the next XFORM raises NotInitialised: at once, or after any
commands that are no AINIT. -/
def Obligations.RekeyingEndsSession : Prop :=
  ∀ (s t u : State) (key inp : List Byte) (cmds : List Instr), inp.length ≤ s.params.MAXSEG →
    ((key.length = 16 ∧ exec (.keyinit key) s = .next t) ∨
      (key.length ≤ s.params.MAXSEG ∧ exec (.nsinit key) s = .next t)) →
    (∀ i ∈ cmds, i.isAinit = false) → RunTo t cmds u →
    t.AVALID = false ∧
      exec (.xform inp) u = .next { u with respOut := u.respOut ++ [0x00, 0x00, 0x00, 0x03] }

/-! ### IntegrityHasher -/

/-- 44 R201: HINIT with no payload starts a digest from either hasher state and writes H, HLEN, HBUFN and HSTATE, nothing else;
with a payload it raises LengthError. -/
def Obligations.HinitStartsDigest : Prop :=
  ∀ (s : State) (inp : List Byte),
    exec (.hinit inp) s =
      if inp = [] then
        .next { s with
          H := #v[0x67452301, 0xEFCDAB89, 0x98BADCFE, 0x10325476, 0xC3D2E1F0]
          HLEN := 0, HBUFN := 0, HSTATE := .active
          respOut := s.respOut ++ [0x00, 0x00, 0x00, 0x00] }
      else .next { s with respOut := s.respOut ++ [0x00, 0x00, 0x00, 0x02] }

/-- HUPDATE while a digest is in progress, within both limits (44 R202, R203): H and HBUF are those of the absorbing loop, HBUFN
moves on modulo 64, HLEN counts the bytes, nothing else changes. -/
def Obligations.HupdateAbsorbsPiece : Prop :=
  ∀ (s : State) (inp : List Byte), inp.length ≤ s.params.MAXSEG → s.HSTATE = .active →
    s.HLEN.toNat + inp.length ≤ 2 ^ 61 - 1 →
    exec (.hupdate inp) s =
      .next { s with
        H := (absorbAll inp { H := s.H, HBUF := s.HBUF, HBUFN := s.HBUFN }).H
        HBUF := (absorbAll inp { H := s.H, HBUF := s.HBUF, HBUFN := s.HBUFN }).HBUF
        HBUFN := Fin.ofNat 64 (s.HBUFN.val + inp.length)
        HLEN := BitVec.ofNat 64 (s.HLEN.toNat + inp.length)
        respOut := s.respOut ++ [0x00, 0x00, 0x00, 0x00] }

/-- HUPDATE extends the message (10 R42; 44 R203): when the hasher holds exactly the message so far, it holds exactly the longer
message afterwards, and the digest stays in progress. -/
def Obligations.HupdateExtendsMessage : Prop :=
  ∀ (s : State) (msg inp : List Byte), Absorbed msg s → inp.length ≤ s.params.MAXSEG → s.HSTATE = .active →
    msg.length + inp.length ≤ 2 ^ 61 - 1 →
    ∃ t : State, exec (.hupdate inp) s = .next t ∧ Absorbed (msg ++ inp) t ∧ t.HSTATE = .active

/-- It does not matter how a message is cut into HUPDATE commands (44 R207, which the spec derives from R201, R203 and R206): two
pieces leave the state that one piece leaves, but for the responses. -/
def Obligations.HashUpdatesConcatenate : Prop :=
  ∀ (s : State) (X Y : List Byte), s.HSTATE = .active → X.length + Y.length ≤ s.params.MAXSEG →
    s.HLEN.toNat + X.length + Y.length ≤ 2 ^ 61 - 1 →
    ∃ t u v : State, exec (.hupdate X) s = .next t ∧ exec (.hupdate Y) t = .next u ∧
      exec (.hupdate (X ++ Y)) s = .next v ∧ u = { v with respOut := u.respOut }

/-- HFINAL while a digest is in progress answers OK with 20 bytes, the big-endian chaining value after the padding has been
absorbed, ends the digest, and leaves the other units untouched (44 R206, R208). H, HBUF, HBUFN and HLEN are open afterwards. -/
def Obligations.HfinalEndsDigest : Prop :=
  ∀ s : State, s.HSTATE = .active → ∃ t : State,
    exec (.hfinal []) s = .next t ∧
    t.respOut = s.respOut ++ ([0x14, 0x00, 0x00, 0x00] ++
      digestBytes (absorbAll
        ([0x80] ++ List.replicate ((119 - s.HBUFN.val) % 64) 0 ++ bytesBe64 (8 * s.HLEN))
        { H := s.H, HBUF := s.HBUF, HBUFN := s.HBUFN }).H) ∧
    t = { s with
      HSTATE := .idle, respOut := t.respOut, opens := t.opens
      H := t.H, HBUF := t.HBUF, HBUFN := t.HBUFN, HLEN := t.HLEN }

/-- HFINAL returns the digest of the message absorbed (44 R204 to R206), computed in one piece over the padded message. -/
def Obligations.HfinalReturnsDigest : Prop :=
  ∀ (s : State) (msg : List Byte), s.HSTATE = .active → Absorbed msg s → ∃ t : State,
    exec (.hfinal []) s = .next t ∧ t.respOut = s.respOut ++ responseFrame .ok (sha1 msg) ∧ t.HSTATE = .idle

/-- 44 R207, which the spec derives from R201, R203 and R206: the digest is a function of the concatenation of all HUPDATE
payloads since the last HINIT and of nothing else: not of how the message was cut, not of the cipher commands in between. -/
def Obligations.DigestOfWholeMessage : Prop :=
  ∀ (s s0 t : State) (cmds : List Instr),
    (∀ i ∈ cmds, i.isHash = true → ∃ inp : List Byte, i = .hupdate inp ∧ inp.length ≤ s.params.MAXSEG) →
    (cmds.flatMap Instr.messagePiece).length ≤ 2 ^ 61 - 1 →
    exec (.hinit []) s = .next s0 → RunTo s0 cmds t →
    ∃ u : State, exec (.hfinal []) t = .next u ∧
      u.respOut = t.respOut ++ responseFrame .ok (sha1 (cmds.flatMap Instr.messagePiece))

/-! ### The whole machine -/

/-- KEYINIT, NSINIT, AINIT and HINIT are idempotent (20 R74): repeating one with the same payload leaves the same state, but for
the second response. -/
def Obligations.SetupCommandsIdempotent : Prop :=
  ∀ (i : Instr) (s t u : State) (inp : List Byte),
    i ∈ [.keyinit inp, .nsinit inp, .ainitP inp, .ainitH inp, .ainitH2 inp, .hinit inp] →
    exec i s = .next t → exec i t = .next u → u = { t with respOut := u.respOut }

/-- Only a KEYINIT or AINIT with a 16-byte key writes S or KVALID, and it writes the key's schedule (10 R31, R32; 40 R117). -/
def Obligations.OnlyKeyCommandsWriteSchedule : Prop :=
  ∀ (i : Instr) (s t : State), exec i s = .next t →
    (t.S = s.S ∧ t.KVALID = s.KVALID) ∨
    (∃ key : List Byte, key.length = 16 ∧ i ∈ [.keyinit key, .ainitP key, .ainitH key, .ainitH2 key] ∧
      t.S = keySchedule s.params.P32 s.params.Q32 key ∧ t.KVALID = true)

/-- Only an NSINIT of at most MAXSEG bytes or a hybrid AINIT with a 16-byte key writes the table or TVALID, and it writes the
table of its payload (10 R35, R36). -/
def Obligations.OnlyTableCommandsWriteTable : Prop :=
  ∀ (i : Instr) (s t : State), exec i s = .next t →
    (t.C2V = s.C2V ∧ t.V2C = s.V2C ∧ t.TVALID = s.TVALID) ∨
    (∃ key : List Byte,
      ((key.length ≤ s.params.MAXSEG ∧ i = .nsinit key) ∨ (key.length = 16 ∧ i ∈ [.ainitH key, .ainitH2 key])) ∧
      t.C2V = tableC2V key ∧ t.V2C = tableV2C key ∧ t.TVALID = true)

/-- Who writes the adapter (10 R37, R39, R40): FB, KS and CUR only AINIT and an XFORM with a payload; AVAR only AINIT; AVALID is
set by AINIT only and cleared by KEYINIT and NSINIT only. -/
def Obligations.OnlyAdapterCommandsWriteSession : Prop :=
  ∀ (i : Instr) (s t : State), exec i s = .next t →
    let isAinit : Prop := ∃ key : List Byte, key.length = 16 ∧ i ∈ [.ainitP key, .ainitH key, .ainitH2 key]
    ((t.FB = s.FB ∧ t.KS = s.KS ∧ t.CUR = s.CUR) ∨ isAinit ∨ ∃ inp : List Byte, inp ≠ [] ∧ i = .xform inp) ∧
    (t.AVAR = s.AVAR ∨ isAinit) ∧
    (s.AVALID = false → t.AVALID = true → isAinit) ∧
    (s.AVALID = true → t.AVALID = false → ∃ key : List Byte,
      (key.length = 16 ∧ i = .keyinit key) ∨ (key.length ≤ s.params.MAXSEG ∧ i = .nsinit key))

/-- Hash commands and the other commands share no register (10 R50, which the spec derives from R30). Written: neither writes a
register of the other. Read: from two states that agree on the hasher's registers a hash command answers alike and leaves them
agreeing, and from two states that agree on the other units' registers any other command does, whatever the remaining registers
hold. The hasher's open registers after HFINAL agree where the two states draw the same free values (log entry 4). -/
def Obligations.HashAndCipherIndependent : Prop :=
  (∀ (i : Instr) (s t : State), exec i s = .next t →
    (i.isHash = true → SameCipher s t) ∧ (i.isHash = false → SameHasher s t)) ∧
  ∀ (i : Instr) (s s' t : State), s.params = s'.params → exec i s = .next t →
    (i.isHash = true → SameHasher s s' → ∃ (t' : State) (frame : List Byte), exec i s' = .next t' ∧
      t.respOut = s.respOut ++ frame ∧ t'.respOut = s'.respOut ++ frame ∧
      t.HSTATE = t'.HSTATE ∧ (t.HSTATE = .active ∨ s.opens = s'.opens → SameHasher t t')) ∧
    (i.isHash = false → SameCipher s s' → ∃ (t' : State) (frame : List Byte), exec i s' = .next t' ∧
      t.respOut = s.respOut ++ frame ∧ t'.respOut = s'.respOut ++ frame ∧ SameCipher t t')

/-- Only the reset input clears KVALID and TVALID (10 R32, R36; 70 R280). -/
def Obligations.ValidityFlagsSurviveCommands : Prop :=
  ∀ s t : State, s.RESET = false → step s = .next t →
    (s.KVALID = true → t.KVALID = true) ∧ (s.TVALID = true → t.TVALID = true)

/-- The invariant of the core holds at reset (10 R35, R38, R42, R49). -/
def Obligations.ResetMeetsInvariants : Prop := Inv State.reset

/-- Every step from a state that meets the invariant leads to one that meets it: a schedule in force is a key's, a valid table is
a bijection, an open session stands at a keystream block of its schedule, and a digest in progress holds its message (10 R32, R35,
R38, R42). -/
def Obligations.StepKeepsInvariants : Prop := ∀ s t : State, Inv s → step s = .next t → Inv t

/-- Storage whose validity flag is clear cannot be observed (10 R49, whose sentence on it the spec derives from R32, R36, R40 and
44 R208): two states that agree on the ports, the flags and all storage whose flag is set answer alike and agree so again after
every step, whatever they hold elsewhere. -/
def Obligations.UnspecifiedStorageIsUnobservable : Prop :=
  ∀ s t s' : State, Inv s → Inv t → SameVisible s t → step s = .next s' →
    ∃ t' : State, step t = .next t' ∧ SameVisible s' t'

/-- The state after reset (10 R49): the four flags. That both ports are empty is the model's reading (log entry 6). -/
def Obligations.ResetStateFlags : Prop :=
  State.reset.KVALID = false ∧ State.reset.TVALID = false ∧ State.reset.AVALID = false ∧ State.reset.HSTATE = .idle ∧
    State.reset.cmdIn = [] ∧ State.reset.respOut = [] ∧ State.reset.RESET = false

/-- The reset input (70 R280): asserted in any state, even with a frame on the command port, it clears the four flags; the frame
is abandoned without a response. That the streams are emptied is the model's reading (log entry 6). -/
def Obligations.ResetInputClearsFlags : Prop :=
  ∀ s : State, s.RESET = true → ∃ t : State, step s = .next t ∧
    t.KVALID = false ∧ t.TVALID = false ∧ t.AVALID = false ∧ t.HSTATE = .idle ∧
    t.cmdIn = [] ∧ t.respOut = [] ∧ t.RESET = false

/-! ### The host's sequences -/

/-- The encrypt and decrypt sequences of 45 R232 and R233. Round trip (R238, which the spec derives from 43 R185 and 44 R207): for
a stream of any length, hashed in pieces of any cut, and two selectors of one variant, the second core recovers the plaintext and
both digests are the plaintext's. The reads of the two hosts may fall anywhere (R235): in a hybrid session both must give segments
of the same lengths, in a primitive session the cuts are immaterial. Abort (R232): a wrong key length ends either sequence with
ConfigurationError, in the state the faulting AINIT leaves. -/
def Obligations.PipelineRoundTrip : Prop :=
  (∀ (s s' : State) (sel sel' : Selector) (key : List Byte) (pieces : List (List Byte)) (reads reads' : List Nat),
    key.length = 16 → sel.hybrid = sel'.hybrid → s.params = s'.params → 65536 ≤ s.params.MAXSEG →
    (∀ x ∈ pieces, x.length ≤ s.params.MAXSEG) → pieces.flatten.length ≤ 2 ^ 61 - 1 →
    (sel.hybrid = false ∨
      (cuts reads pieces.flatten).map List.length = (cuts reads' pieces.flatten).map List.length) →
    ∃ (ct : List Byte) (t t' : State),
      encryptSequence sel key pieces reads s = .ok (sha1 pieces.flatten, ct) t ∧
      ct.length = pieces.flatten.length ∧
      decryptSequence sel' key ct reads' s' = .ok (sha1 pieces.flatten, pieces.flatten) t') ∧
  ∀ (s : State) (sel : Selector) (key Q : List Byte) (pieces : List (List Byte)) (reads : List Nat),
    key.length ≠ 16 → (∀ x ∈ pieces, x.length ≤ s.params.MAXSEG) → pieces.flatten.length ≤ 2 ^ 61 - 1 →
    (∃ t : State,
      hashPass pieces s = .ok (sha1 pieces.flatten) t ∧
      encryptSequence sel key pieces reads s = .aborted 0x01 { t with respOut := t.respOut ++ [0x00, 0x00, 0x00, 0x01] }) ∧
    decryptSequence sel key Q reads s = .aborted 0x01 { s with respOut := s.respOut ++ [0x00, 0x00, 0x00, 0x01] }

/-- Flipping bits of a ciphertext flips the same bits of the plaintext and no others, in both variants, and the two digests are
those of the two plaintexts (45 R239, which the spec derives from 43 R182 and R183). -/
def Obligations.TamperingFlipsSameBits : Prop :=
  ∀ (s : State) (sel : Selector) (key Q Q' : List Byte) (reads : List Nat),
    key.length = 16 → 65536 ≤ s.params.MAXSEG → Q.length = Q'.length → Q.length ≤ 2 ^ 61 - 1 →
    ∃ (X X' : List Byte) (t t' : State),
      decryptSequence sel key Q reads s = .ok (sha1 X, X) t ∧ decryptSequence sel key Q' reads s = .ok (sha1 X', X') t' ∧
      X.length = Q.length ∧ X'.length = Q'.length ∧
      List.zipWith (fun x y => x ^^^ y) X X' = List.zipWith (fun x y => x ^^^ y) Q Q'

/-- The host's comparison of hexadecimal texts without regard to case is equality of the digests (44 R210, 45 R236), whichever
case the stored text was written in. -/
def Obligations.HashVerdictIsDigestEquality : Prop :=
  ∀ stored digest : List Byte,
    (hashValid (hexText stored) digest = true ↔ stored = digest) ∧
    (hashValid ((hexText stored).map Char.toUpper) digest = true ↔ stored = digest)

/-! ### The hash function -/

/-- The compression of a block (44 R204) with the round function and constant of R205, written as sequences: `W t` is message word
`t`, the first sixteen read big-endian, and `a t` to `e t` are the working words before step `t`. Beside it, the bytes of the
digest (44 R206, 20 R66) and of the message length in the padding (44 R206, 00 R12), as quotients of the numbers. -/
def Obligations.HashCompressionRounds : Prop :=
  (∀ (H : Vector Word 5) (M : Vector Byte 64), ∃ W a b c d e f K : Nat → Word,
    (∀ t, t < 16 → W t = M.getD (4 * t) 0 ++ M.getD (4 * t + 1) 0 ++ M.getD (4 * t + 2) 0 ++ M.getD (4 * t + 3) 0) ∧
    (∀ t, 16 ≤ t → t < 80 → W t = rotl32 ((W (t - 3) ^^^ W (t - 8)) ^^^ (W (t - 14) ^^^ W (t - 16))) 1) ∧
    (∀ t, t < 20 → f t = ((b t &&& c t) ||| (~~~(b t) &&& d t)) ∧ K t = 0x5A827999) ∧
    (∀ t, 20 ≤ t → t < 40 → f t = ((b t ^^^ c t) ^^^ d t) ∧ K t = 0x6ED9EBA1) ∧
    (∀ t, 40 ≤ t → t < 60 → f t = (((b t &&& c t) ||| (b t &&& d t)) ||| (c t &&& d t)) ∧ K t = 0x8F1BBCDC) ∧
    (∀ t, 60 ≤ t → t < 80 → f t = ((b t ^^^ c t) ^^^ d t) ∧ K t = 0xCA62C1D6) ∧
    a 0 = H[0] ∧ b 0 = H[1] ∧ c 0 = H[2] ∧ d 0 = H[3] ∧ e 0 = H[4] ∧
    (∀ t, t < 80 →
      a (t + 1) = rotl32 (a t) 5 + f t + e t + K t + W t ∧ b (t + 1) = a t ∧ c (t + 1) = rotl32 (b t) 30 ∧
      d (t + 1) = c t ∧ e (t + 1) = d t) ∧
    compress H M = #v[H[0] + a 80, H[1] + b 80, H[2] + c 80, H[3] + d 80, H[4] + e 80]) ∧
  (∀ H : Vector Word 5,
    digestBytes H = [H[0], H[1], H[2], H[3], H[4]].flatMap fun w =>
      [BitVec.ofNat 8 (w.toNat / 2 ^ 24), BitVec.ofNat 8 (w.toNat / 2 ^ 16), BitVec.ofNat 8 (w.toNat / 2 ^ 8),
       BitVec.ofNat 8 w.toNat]) ∧
  ∀ n : BitVec 64,
    bytesBe64 n =
      [BitVec.ofNat 8 (n.toNat / 2 ^ 56), BitVec.ofNat 8 (n.toNat / 2 ^ 48), BitVec.ofNat 8 (n.toNat / 2 ^ 40),
       BitVec.ofNat 8 (n.toNat / 2 ^ 32), BitVec.ofNat 8 (n.toNat / 2 ^ 24), BitVec.ofNat 8 (n.toNat / 2 ^ 16),
       BitVec.ofNat 8 (n.toNat / 2 ^ 8), BitVec.ofNat 8 n.toNat]
end

