-- ==== Sys2Proof/Laws/Bits.lean ====
section
/-! SUPPORT. Laws of the bit fields, byte orders, rotations and operand forms. -/

namespace Sys2Proof.Machine

theorem rotr32_rotl32 (a : Word) (n : Nat) : rotr32 (rotl32 a n) n = a := by
  unfold rotr32 rotl32
  ext i hi
  have h : n % 32 < 32 := Nat.mod_lt _ (by decide)
  simp only [BitVec.getElem_rotateRight, BitVec.getElem_rotateLeft]
  split
  · split
    · omega
    · congr 1; omega
  · split
    · congr 1; omega
    · omega

theorem rotl32_rotr32 (a : Word) (n : Nat) : rotl32 (rotr32 a n) n = a := by
  unfold rotr32 rotl32
  ext i hi
  have h : n % 32 < 32 := Nat.mod_lt _ (by decide)
  simp only [BitVec.getElem_rotateRight, BitVec.getElem_rotateLeft]
  split
  · split
    · omega
    · congr 1; omega
  · split
    · congr 1; omega
    · omega

theorem le32_bytesLe32 (w : Word) :
    le32 (w.extractLsb' 0 8) (w.extractLsb' 8 8) (w.extractLsb' 16 8) (w.extractLsb' 24 8) = w := by
  unfold le32
  apply BitVec.eq_of_getLsbD_eq
  intro i hi
  simp only [BitVec.getLsbD_append, BitVec.getLsbD_extractLsb']
  split
  · simp_all
  · split
    · have : i - 8 < 8 := by omega
      simp [this]; congr 1; omega
    · split
      · have : i - 8 - 8 < 8 := by omega
        simp [this]; congr 1; omega
      · have : i - 8 - 8 - 8 < 8 := by omega
        simp [this]; congr 1; omega

theorem bytesLe32_le32 (b0 b1 b2 b3 : Byte) : bytesLe32 (le32 b0 b1 b2 b3) = [b0, b1, b2, b3] := by
  have h (k : Nat) (b : Byte) (H : ∀ i, i < 8 → (le32 b0 b1 b2 b3).getLsbD (k + i) = b.getLsbD i) :
      (le32 b0 b1 b2 b3).extractLsb' k 8 = b := by
    apply BitVec.eq_of_getLsbD_eq
    intro i hi
    simp [hi, H i hi]
  unfold bytesLe32
  rw [h 0 b0, h 8 b1, h 16 b2, h 24 b3] <;> intro i hi <;> simp only [le32, BitVec.getLsbD_append]
  · rw [if_neg (by omega), if_neg (by omega), if_neg (by omega)]; congr 1; omega
  · rw [if_neg (by omega), if_neg (by omega), if_pos (by omega)]; congr 1; omega
  · rw [if_neg (by omega), if_pos (by omega)]; congr 1; omega
  · rw [if_pos (by omega)]; congr 1; omega

/-- A byte of a number as a quotient (R12). -/
theorem extractByte_eq_ofNat {n : Nat} (w : BitVec n) (k : Nat) :
    w.extractLsb' k 8 = BitVec.ofNat 8 (w.toNat / 2 ^ k) := by
  apply BitVec.eq_of_toNat_eq
  simp [BitVec.extractLsb'_toNat, Nat.shiftRight_eq_div_pow]

@[simp] theorem bytesLe32_length (w : Word) : (bytesLe32 w).length = 4 := rfl

@[simp] theorem bytesBe32_length (w : Word) : (bytesBe32 w).length = 4 := rfl

@[simp] theorem bytesBe64_length (n : BitVec 64) : (bytesBe64 n).length = 8 := rfl

@[simp] theorem joinBytes_length (w : Words) : (joinBytes w).length = 16 := rfl

theorem blockOf_toList (inp : List Byte) (h : inp.length = 16) : (blockOf inp).toList = inp := by
  apply List.ext_getElem
  · simp [h]
  · intro i h1 h2
    simp [blockOf, h2]

theorem blockOf_of_toList (X : Vector Byte 16) : blockOf X.toList = X := by
  ext i hi
  simp [blockOf]

theorem join_toList (w : Words) : (join w).toList = joinBytes w := blockOf_toList _ (joinBytes_length w)

theorem split_join (w : Words) : split (join w) = w := by
  obtain ⟨a, b, c, d⟩ := w
  simp only [split, join, blockOf, Vector.getElem_ofFn, joinBytes, bytesLe32]
  simp [le32_bytesLe32]

theorem join_split (X : Vector Byte 16) : join (split X) = X := by
  rw [join, joinBytes, split]
  simp only [bytesLe32_le32]
  ext i hi
  simp only [blockOf, Vector.getElem_ofFn]
  have : i = 0 ∨ i = 1 ∨ i = 2 ∨ i = 3 ∨ i = 4 ∨ i = 5 ∨ i = 6 ∨ i = 7 ∨ i = 8 ∨ i = 9 ∨ i = 10 ∨ i = 11 ∨ i = 12 ∨
      i = 13 ∨ i = 14 ∨ i = 15 := by omega
  rcases this with h | h | h | h | h | h | h | h | h | h | h | h | h | h | h | h <;> subst h <;> rfl

theorem byteOf_hi_lo (b : Byte) : byteOf (hiNib b) (loNib b) = b := by
  apply BitVec.eq_of_getLsbD_eq
  intro i hi
  simp only [byteOf, hiNib, loNib, BitVec.getLsbD_append, BitVec.getLsbD_extractLsb']
  split
  · simp_all
  · have : i - 4 < 4 := by omega
    simp [this]; congr 1; omega

@[simp] theorem hiNib_byteOf (h l : Nibble) : hiNib (byteOf h l) = h := by
  apply BitVec.eq_of_getLsbD_eq
  intro i hi
  simp only [byteOf, hiNib, BitVec.getLsbD_append, BitVec.getLsbD_extractLsb']
  rw [if_neg (by omega)]
  simp [hi]

@[simp] theorem loNib_byteOf (h l : Nibble) : loNib (byteOf h l) = l := by
  apply BitVec.eq_of_getLsbD_eq
  intro i hi
  simp only [byteOf, loNib, BitVec.getLsbD_append, BitVec.getLsbD_extractLsb']
  simp [hi]

@[simp] theorem dataNibbles_nil : dataNibbles [] = [] := rfl

@[simp] theorem dataNibbles_cons (b : Byte) (inp : List Byte) :
    dataNibbles (b :: inp) = hiNib b :: loNib b :: dataNibbles inp := rfl

@[simp] theorem dataNibbles_length (inp : List Byte) : (dataNibbles inp).length = 2 * inp.length := by
  induction inp with
  | nil => rfl
  | cons b inp ih => simp [ih]; omega

theorem packNibbles_dataNibbles (inp : List Byte) : packNibbles (dataNibbles inp) = inp := by
  induction inp with
  | nil => rfl
  | cons b inp ih => simp [packNibbles, ih, byteOf_hi_lo]

/-- Packing an even number of nibbles loses none of them. -/
theorem dataNibbles_packNibbles : (n : Nat) → (y : List Nibble) → y.length = 2 * n →
    dataNibbles (packNibbles y) = y
  | 0, y, h => by
    have : y = [] := List.length_eq_zero_iff.mp (by omega)
    subst this; rfl
  | n + 1, [], h => by simp at h
  | n + 1, [_], h => by simp at h; omega
  | n + 1, a :: b :: y, h => by
    have := dataNibbles_packNibbles n y (by simp at h; omega)
    simp [packNibbles, this]

theorem packNibbles_length (n : Nat) (y : List Nibble) (h : y.length = 2 * n) : (packNibbles y).length = n := by
  have := congrArg List.length (dataNibbles_packNibbles n y h)
  rw [dataNibbles_length, h] at this
  omega

@[simp] theorem xorBytes_length (X Y : List Byte) : (xorBytes X Y).length = min X.length Y.length := by
  simp [xorBytes]

/-- Combining with one mask twice gives the data back (R185). -/
theorem xorBytes_cancel (X Y : List Byte) (h : X.length = Y.length) : xorBytes (xorBytes X Y) Y = X := by
  apply List.ext_getElem
  · simp [h]
  · intro i h1 h2
    simp [xorBytes]

end Sys2Proof.Machine
end

