-- ==== Sys2Proof/Laws/State.lean ====
section
/-! SUPPORT. What each named update of the state leaves in each field: one lemma per field per update. -/

namespace Sys2Proof.Machine

@[simp] theorem State.emit_params (st : Status) (out : List Byte) (s : State) :
    (s.emit st out).params = s.params := rfl
@[simp] theorem State.emit_cmdIn (st : Status) (out : List Byte) (s : State) :
    (s.emit st out).cmdIn = s.cmdIn := rfl
@[simp] theorem State.emit_respOut (st : Status) (out : List Byte) (s : State) :
    (s.emit st out).respOut = s.respOut ++ responseFrame st out := rfl
@[simp] theorem State.emit_RESET (st : Status) (out : List Byte) (s : State) :
    (s.emit st out).RESET = s.RESET := rfl
@[simp] theorem State.emit_S (st : Status) (out : List Byte) (s : State) :
    (s.emit st out).S = s.S := rfl
@[simp] theorem State.emit_KVALID (st : Status) (out : List Byte) (s : State) :
    (s.emit st out).KVALID = s.KVALID := rfl
@[simp] theorem State.emit_C2V (st : Status) (out : List Byte) (s : State) :
    (s.emit st out).C2V = s.C2V := rfl
@[simp] theorem State.emit_V2C (st : Status) (out : List Byte) (s : State) :
    (s.emit st out).V2C = s.V2C := rfl
@[simp] theorem State.emit_TVALID (st : Status) (out : List Byte) (s : State) :
    (s.emit st out).TVALID = s.TVALID := rfl
@[simp] theorem State.emit_FB (st : Status) (out : List Byte) (s : State) :
    (s.emit st out).FB = s.FB := rfl
@[simp] theorem State.emit_KS (st : Status) (out : List Byte) (s : State) :
    (s.emit st out).KS = s.KS := rfl
@[simp] theorem State.emit_CUR (st : Status) (out : List Byte) (s : State) :
    (s.emit st out).CUR = s.CUR := rfl
@[simp] theorem State.emit_AVAR (st : Status) (out : List Byte) (s : State) :
    (s.emit st out).AVAR = s.AVAR := rfl
@[simp] theorem State.emit_AVALID (st : Status) (out : List Byte) (s : State) :
    (s.emit st out).AVALID = s.AVALID := rfl
@[simp] theorem State.emit_H (st : Status) (out : List Byte) (s : State) :
    (s.emit st out).H = s.H := rfl
@[simp] theorem State.emit_HBUF (st : Status) (out : List Byte) (s : State) :
    (s.emit st out).HBUF = s.HBUF := rfl
@[simp] theorem State.emit_HBUFN (st : Status) (out : List Byte) (s : State) :
    (s.emit st out).HBUFN = s.HBUFN := rfl
@[simp] theorem State.emit_HLEN (st : Status) (out : List Byte) (s : State) :
    (s.emit st out).HLEN = s.HLEN := rfl
@[simp] theorem State.emit_HSTATE (st : Status) (out : List Byte) (s : State) :
    (s.emit st out).HSTATE = s.HSTATE := rfl
@[simp] theorem State.emit_opens (st : Status) (out : List Byte) (s : State) :
    (s.emit st out).opens = s.opens := rfl

@[simp] theorem State.withCmdIn_params (rest : List Byte) (s : State) :
    (s.withCmdIn rest).params = s.params := rfl
@[simp] theorem State.withCmdIn_cmdIn (rest : List Byte) (s : State) :
    (s.withCmdIn rest).cmdIn = rest := rfl
@[simp] theorem State.withCmdIn_respOut (rest : List Byte) (s : State) :
    (s.withCmdIn rest).respOut = s.respOut := rfl
@[simp] theorem State.withCmdIn_RESET (rest : List Byte) (s : State) :
    (s.withCmdIn rest).RESET = s.RESET := rfl
@[simp] theorem State.withCmdIn_S (rest : List Byte) (s : State) :
    (s.withCmdIn rest).S = s.S := rfl
@[simp] theorem State.withCmdIn_KVALID (rest : List Byte) (s : State) :
    (s.withCmdIn rest).KVALID = s.KVALID := rfl
@[simp] theorem State.withCmdIn_C2V (rest : List Byte) (s : State) :
    (s.withCmdIn rest).C2V = s.C2V := rfl
@[simp] theorem State.withCmdIn_V2C (rest : List Byte) (s : State) :
    (s.withCmdIn rest).V2C = s.V2C := rfl
@[simp] theorem State.withCmdIn_TVALID (rest : List Byte) (s : State) :
    (s.withCmdIn rest).TVALID = s.TVALID := rfl
@[simp] theorem State.withCmdIn_FB (rest : List Byte) (s : State) :
    (s.withCmdIn rest).FB = s.FB := rfl
@[simp] theorem State.withCmdIn_KS (rest : List Byte) (s : State) :
    (s.withCmdIn rest).KS = s.KS := rfl
@[simp] theorem State.withCmdIn_CUR (rest : List Byte) (s : State) :
    (s.withCmdIn rest).CUR = s.CUR := rfl
@[simp] theorem State.withCmdIn_AVAR (rest : List Byte) (s : State) :
    (s.withCmdIn rest).AVAR = s.AVAR := rfl
@[simp] theorem State.withCmdIn_AVALID (rest : List Byte) (s : State) :
    (s.withCmdIn rest).AVALID = s.AVALID := rfl
@[simp] theorem State.withCmdIn_H (rest : List Byte) (s : State) :
    (s.withCmdIn rest).H = s.H := rfl
@[simp] theorem State.withCmdIn_HBUF (rest : List Byte) (s : State) :
    (s.withCmdIn rest).HBUF = s.HBUF := rfl
@[simp] theorem State.withCmdIn_HBUFN (rest : List Byte) (s : State) :
    (s.withCmdIn rest).HBUFN = s.HBUFN := rfl
@[simp] theorem State.withCmdIn_HLEN (rest : List Byte) (s : State) :
    (s.withCmdIn rest).HLEN = s.HLEN := rfl
@[simp] theorem State.withCmdIn_HSTATE (rest : List Byte) (s : State) :
    (s.withCmdIn rest).HSTATE = s.HSTATE := rfl
@[simp] theorem State.withCmdIn_opens (rest : List Byte) (s : State) :
    (s.withCmdIn rest).opens = s.opens := rfl

@[simp] theorem State.loadSchedule_params (T : Vector Word 44) (s : State) :
    (s.loadSchedule T).params = s.params := rfl
@[simp] theorem State.loadSchedule_cmdIn (T : Vector Word 44) (s : State) :
    (s.loadSchedule T).cmdIn = s.cmdIn := rfl
@[simp] theorem State.loadSchedule_respOut (T : Vector Word 44) (s : State) :
    (s.loadSchedule T).respOut = s.respOut := rfl
@[simp] theorem State.loadSchedule_RESET (T : Vector Word 44) (s : State) :
    (s.loadSchedule T).RESET = s.RESET := rfl
@[simp] theorem State.loadSchedule_S (T : Vector Word 44) (s : State) :
    (s.loadSchedule T).S = T := rfl
@[simp] theorem State.loadSchedule_KVALID (T : Vector Word 44) (s : State) :
    (s.loadSchedule T).KVALID = true := rfl
@[simp] theorem State.loadSchedule_C2V (T : Vector Word 44) (s : State) :
    (s.loadSchedule T).C2V = s.C2V := rfl
@[simp] theorem State.loadSchedule_V2C (T : Vector Word 44) (s : State) :
    (s.loadSchedule T).V2C = s.V2C := rfl
@[simp] theorem State.loadSchedule_TVALID (T : Vector Word 44) (s : State) :
    (s.loadSchedule T).TVALID = s.TVALID := rfl
@[simp] theorem State.loadSchedule_FB (T : Vector Word 44) (s : State) :
    (s.loadSchedule T).FB = s.FB := rfl
@[simp] theorem State.loadSchedule_KS (T : Vector Word 44) (s : State) :
    (s.loadSchedule T).KS = s.KS := rfl
@[simp] theorem State.loadSchedule_CUR (T : Vector Word 44) (s : State) :
    (s.loadSchedule T).CUR = s.CUR := rfl
@[simp] theorem State.loadSchedule_AVAR (T : Vector Word 44) (s : State) :
    (s.loadSchedule T).AVAR = s.AVAR := rfl
@[simp] theorem State.loadSchedule_AVALID (T : Vector Word 44) (s : State) :
    (s.loadSchedule T).AVALID = false := rfl
@[simp] theorem State.loadSchedule_H (T : Vector Word 44) (s : State) :
    (s.loadSchedule T).H = s.H := rfl
@[simp] theorem State.loadSchedule_HBUF (T : Vector Word 44) (s : State) :
    (s.loadSchedule T).HBUF = s.HBUF := rfl
@[simp] theorem State.loadSchedule_HBUFN (T : Vector Word 44) (s : State) :
    (s.loadSchedule T).HBUFN = s.HBUFN := rfl
@[simp] theorem State.loadSchedule_HLEN (T : Vector Word 44) (s : State) :
    (s.loadSchedule T).HLEN = s.HLEN := rfl
@[simp] theorem State.loadSchedule_HSTATE (T : Vector Word 44) (s : State) :
    (s.loadSchedule T).HSTATE = s.HSTATE := rfl
@[simp] theorem State.loadSchedule_opens (T : Vector Word 44) (s : State) :
    (s.loadSchedule T).opens = s.opens := rfl

@[simp] theorem State.loadTable_params (c2v v2c : Vector Nibble 16) (s : State) :
    (s.loadTable c2v v2c).params = s.params := rfl
@[simp] theorem State.loadTable_cmdIn (c2v v2c : Vector Nibble 16) (s : State) :
    (s.loadTable c2v v2c).cmdIn = s.cmdIn := rfl
@[simp] theorem State.loadTable_respOut (c2v v2c : Vector Nibble 16) (s : State) :
    (s.loadTable c2v v2c).respOut = s.respOut := rfl
@[simp] theorem State.loadTable_RESET (c2v v2c : Vector Nibble 16) (s : State) :
    (s.loadTable c2v v2c).RESET = s.RESET := rfl
@[simp] theorem State.loadTable_S (c2v v2c : Vector Nibble 16) (s : State) :
    (s.loadTable c2v v2c).S = s.S := rfl
@[simp] theorem State.loadTable_KVALID (c2v v2c : Vector Nibble 16) (s : State) :
    (s.loadTable c2v v2c).KVALID = s.KVALID := rfl
@[simp] theorem State.loadTable_C2V (c2v v2c : Vector Nibble 16) (s : State) :
    (s.loadTable c2v v2c).C2V = c2v := rfl
@[simp] theorem State.loadTable_V2C (c2v v2c : Vector Nibble 16) (s : State) :
    (s.loadTable c2v v2c).V2C = v2c := rfl
@[simp] theorem State.loadTable_TVALID (c2v v2c : Vector Nibble 16) (s : State) :
    (s.loadTable c2v v2c).TVALID = true := rfl
@[simp] theorem State.loadTable_FB (c2v v2c : Vector Nibble 16) (s : State) :
    (s.loadTable c2v v2c).FB = s.FB := rfl
@[simp] theorem State.loadTable_KS (c2v v2c : Vector Nibble 16) (s : State) :
    (s.loadTable c2v v2c).KS = s.KS := rfl
@[simp] theorem State.loadTable_CUR (c2v v2c : Vector Nibble 16) (s : State) :
    (s.loadTable c2v v2c).CUR = s.CUR := rfl
@[simp] theorem State.loadTable_AVAR (c2v v2c : Vector Nibble 16) (s : State) :
    (s.loadTable c2v v2c).AVAR = s.AVAR := rfl
@[simp] theorem State.loadTable_AVALID (c2v v2c : Vector Nibble 16) (s : State) :
    (s.loadTable c2v v2c).AVALID = false := rfl
@[simp] theorem State.loadTable_H (c2v v2c : Vector Nibble 16) (s : State) :
    (s.loadTable c2v v2c).H = s.H := rfl
@[simp] theorem State.loadTable_HBUF (c2v v2c : Vector Nibble 16) (s : State) :
    (s.loadTable c2v v2c).HBUF = s.HBUF := rfl
@[simp] theorem State.loadTable_HBUFN (c2v v2c : Vector Nibble 16) (s : State) :
    (s.loadTable c2v v2c).HBUFN = s.HBUFN := rfl
@[simp] theorem State.loadTable_HLEN (c2v v2c : Vector Nibble 16) (s : State) :
    (s.loadTable c2v v2c).HLEN = s.HLEN := rfl
@[simp] theorem State.loadTable_HSTATE (c2v v2c : Vector Nibble 16) (s : State) :
    (s.loadTable c2v v2c).HSTATE = s.HSTATE := rfl
@[simp] theorem State.loadTable_opens (c2v v2c : Vector Nibble 16) (s : State) :
    (s.loadTable c2v v2c).opens = s.opens := rfl

@[simp] theorem State.openSession_params (s : State) :
    (s.openSession).params = s.params := rfl
@[simp] theorem State.openSession_cmdIn (s : State) :
    (s.openSession).cmdIn = s.cmdIn := rfl
@[simp] theorem State.openSession_respOut (s : State) :
    (s.openSession).respOut = s.respOut := rfl
@[simp] theorem State.openSession_RESET (s : State) :
    (s.openSession).RESET = s.RESET := rfl
@[simp] theorem State.openSession_S (s : State) :
    (s.openSession).S = s.S := rfl
@[simp] theorem State.openSession_KVALID (s : State) :
    (s.openSession).KVALID = s.KVALID := rfl
@[simp] theorem State.openSession_C2V (s : State) :
    (s.openSession).C2V = s.C2V := rfl
@[simp] theorem State.openSession_V2C (s : State) :
    (s.openSession).V2C = s.V2C := rfl
@[simp] theorem State.openSession_TVALID (s : State) :
    (s.openSession).TVALID = s.TVALID := rfl
@[simp] theorem State.openSession_FB (s : State) :
    (s.openSession).FB = s.FB := rfl
@[simp] theorem State.openSession_KS (s : State) :
    (s.openSession).KS = s.KS := rfl
@[simp] theorem State.openSession_CUR (s : State) :
    (s.openSession).CUR = 0 := rfl
@[simp] theorem State.openSession_AVAR (s : State) :
    (s.openSession).AVAR = s.AVAR := rfl
@[simp] theorem State.openSession_AVALID (s : State) :
    (s.openSession).AVALID = true := rfl
@[simp] theorem State.openSession_H (s : State) :
    (s.openSession).H = s.H := rfl
@[simp] theorem State.openSession_HBUF (s : State) :
    (s.openSession).HBUF = s.HBUF := rfl
@[simp] theorem State.openSession_HBUFN (s : State) :
    (s.openSession).HBUFN = s.HBUFN := rfl
@[simp] theorem State.openSession_HLEN (s : State) :
    (s.openSession).HLEN = s.HLEN := rfl
@[simp] theorem State.openSession_HSTATE (s : State) :
    (s.openSession).HSTATE = s.HSTATE := rfl
@[simp] theorem State.openSession_opens (s : State) :
    (s.openSession).opens = s.opens := rfl

@[simp] theorem State.refill_params (s : State) :
    (s.refill).params = s.params := rfl
@[simp] theorem State.refill_cmdIn (s : State) :
    (s.refill).cmdIn = s.cmdIn := rfl
@[simp] theorem State.refill_respOut (s : State) :
    (s.refill).respOut = s.respOut := rfl
@[simp] theorem State.refill_RESET (s : State) :
    (s.refill).RESET = s.RESET := rfl
@[simp] theorem State.refill_S (s : State) :
    (s.refill).S = s.S := rfl
@[simp] theorem State.refill_KVALID (s : State) :
    (s.refill).KVALID = s.KVALID := rfl
@[simp] theorem State.refill_C2V (s : State) :
    (s.refill).C2V = s.C2V := rfl
@[simp] theorem State.refill_V2C (s : State) :
    (s.refill).V2C = s.V2C := rfl
@[simp] theorem State.refill_TVALID (s : State) :
    (s.refill).TVALID = s.TVALID := rfl
@[simp] theorem State.refill_FB (s : State) :
    (s.refill).FB = encBlock s.S s.FB := rfl
@[simp] theorem State.refill_KS (s : State) :
    (s.refill).KS = encBlock s.S s.FB := rfl
@[simp] theorem State.refill_CUR (s : State) :
    (s.refill).CUR = s.CUR := rfl
@[simp] theorem State.refill_AVAR (s : State) :
    (s.refill).AVAR = s.AVAR := rfl
@[simp] theorem State.refill_AVALID (s : State) :
    (s.refill).AVALID = s.AVALID := rfl
@[simp] theorem State.refill_H (s : State) :
    (s.refill).H = s.H := rfl
@[simp] theorem State.refill_HBUF (s : State) :
    (s.refill).HBUF = s.HBUF := rfl
@[simp] theorem State.refill_HBUFN (s : State) :
    (s.refill).HBUFN = s.HBUFN := rfl
@[simp] theorem State.refill_HLEN (s : State) :
    (s.refill).HLEN = s.HLEN := rfl
@[simp] theorem State.refill_HSTATE (s : State) :
    (s.refill).HSTATE = s.HSTATE := rfl
@[simp] theorem State.refill_opens (s : State) :
    (s.refill).opens = s.opens := rfl

@[simp] theorem State.closeDigest_params (s : State) :
    (s.closeDigest).params = s.params := rfl
@[simp] theorem State.closeDigest_cmdIn (s : State) :
    (s.closeDigest).cmdIn = s.cmdIn := rfl
@[simp] theorem State.closeDigest_respOut (s : State) :
    (s.closeDigest).respOut = s.respOut := rfl
@[simp] theorem State.closeDigest_RESET (s : State) :
    (s.closeDigest).RESET = s.RESET := rfl
@[simp] theorem State.closeDigest_S (s : State) :
    (s.closeDigest).S = s.S := rfl
@[simp] theorem State.closeDigest_KVALID (s : State) :
    (s.closeDigest).KVALID = s.KVALID := rfl
@[simp] theorem State.closeDigest_C2V (s : State) :
    (s.closeDigest).C2V = s.C2V := rfl
@[simp] theorem State.closeDigest_V2C (s : State) :
    (s.closeDigest).V2C = s.V2C := rfl
@[simp] theorem State.closeDigest_TVALID (s : State) :
    (s.closeDigest).TVALID = s.TVALID := rfl
@[simp] theorem State.closeDigest_FB (s : State) :
    (s.closeDigest).FB = s.FB := rfl
@[simp] theorem State.closeDigest_KS (s : State) :
    (s.closeDigest).KS = s.KS := rfl
@[simp] theorem State.closeDigest_CUR (s : State) :
    (s.closeDigest).CUR = s.CUR := rfl
@[simp] theorem State.closeDigest_AVAR (s : State) :
    (s.closeDigest).AVAR = s.AVAR := rfl
@[simp] theorem State.closeDigest_AVALID (s : State) :
    (s.closeDigest).AVALID = s.AVALID := rfl
@[simp] theorem State.closeDigest_H (s : State) :
    (s.closeDigest).H = Config.freeH s.opens := rfl
@[simp] theorem State.closeDigest_HBUF (s : State) :
    (s.closeDigest).HBUF = Config.freeHBUF s.opens := rfl
@[simp] theorem State.closeDigest_HBUFN (s : State) :
    (s.closeDigest).HBUFN = Config.freeHBUFN s.opens := rfl
@[simp] theorem State.closeDigest_HLEN (s : State) :
    (s.closeDigest).HLEN = Config.freeHLEN s.opens := rfl
@[simp] theorem State.closeDigest_HSTATE (s : State) :
    (s.closeDigest).HSTATE = .idle := rfl
@[simp] theorem State.closeDigest_opens (s : State) :
    (s.closeDigest).opens = s.opens + 1 := rfl

@[simp] theorem State.applyReset_params (s : State) :
    (s.applyReset).params = s.params := rfl
@[simp] theorem State.applyReset_cmdIn (s : State) :
    (s.applyReset).cmdIn = [] := rfl
@[simp] theorem State.applyReset_respOut (s : State) :
    (s.applyReset).respOut = [] := rfl
@[simp] theorem State.applyReset_RESET (s : State) :
    (s.applyReset).RESET = false := rfl
@[simp] theorem State.applyReset_S (s : State) :
    (s.applyReset).S = Config.freeS s.opens := rfl
@[simp] theorem State.applyReset_KVALID (s : State) :
    (s.applyReset).KVALID = false := rfl
@[simp] theorem State.applyReset_C2V (s : State) :
    (s.applyReset).C2V = Config.freeC2V s.opens := rfl
@[simp] theorem State.applyReset_V2C (s : State) :
    (s.applyReset).V2C = Config.freeV2C s.opens := rfl
@[simp] theorem State.applyReset_TVALID (s : State) :
    (s.applyReset).TVALID = false := rfl
@[simp] theorem State.applyReset_FB (s : State) :
    (s.applyReset).FB = Config.freeFB s.opens := rfl
@[simp] theorem State.applyReset_KS (s : State) :
    (s.applyReset).KS = Config.freeKS s.opens := rfl
@[simp] theorem State.applyReset_CUR (s : State) :
    (s.applyReset).CUR = Config.freeCUR s.opens := rfl
@[simp] theorem State.applyReset_AVAR (s : State) :
    (s.applyReset).AVAR = Config.freeAVAR s.opens := rfl
@[simp] theorem State.applyReset_AVALID (s : State) :
    (s.applyReset).AVALID = false := rfl
@[simp] theorem State.applyReset_H (s : State) :
    (s.applyReset).H = Config.freeH s.opens := rfl
@[simp] theorem State.applyReset_HBUF (s : State) :
    (s.applyReset).HBUF = Config.freeHBUF s.opens := rfl
@[simp] theorem State.applyReset_HBUFN (s : State) :
    (s.applyReset).HBUFN = Config.freeHBUFN s.opens := rfl
@[simp] theorem State.applyReset_HLEN (s : State) :
    (s.applyReset).HLEN = Config.freeHLEN s.opens := rfl
@[simp] theorem State.applyReset_HSTATE (s : State) :
    (s.applyReset).HSTATE = .idle := rfl
@[simp] theorem State.applyReset_opens (s : State) :
    (s.applyReset).opens = s.opens + 1 := rfl

@[simp] theorem State.hostSends_params (bytes : List Byte) (s : State) :
    (s.hostSends bytes).params = s.params := rfl
@[simp] theorem State.hostSends_cmdIn (bytes : List Byte) (s : State) :
    (s.hostSends bytes).cmdIn = s.cmdIn ++ bytes := rfl
@[simp] theorem State.hostSends_respOut (bytes : List Byte) (s : State) :
    (s.hostSends bytes).respOut = s.respOut := rfl
@[simp] theorem State.hostSends_RESET (bytes : List Byte) (s : State) :
    (s.hostSends bytes).RESET = s.RESET := rfl
@[simp] theorem State.hostSends_S (bytes : List Byte) (s : State) :
    (s.hostSends bytes).S = s.S := rfl
@[simp] theorem State.hostSends_KVALID (bytes : List Byte) (s : State) :
    (s.hostSends bytes).KVALID = s.KVALID := rfl
@[simp] theorem State.hostSends_C2V (bytes : List Byte) (s : State) :
    (s.hostSends bytes).C2V = s.C2V := rfl
@[simp] theorem State.hostSends_V2C (bytes : List Byte) (s : State) :
    (s.hostSends bytes).V2C = s.V2C := rfl
@[simp] theorem State.hostSends_TVALID (bytes : List Byte) (s : State) :
    (s.hostSends bytes).TVALID = s.TVALID := rfl
@[simp] theorem State.hostSends_FB (bytes : List Byte) (s : State) :
    (s.hostSends bytes).FB = s.FB := rfl
@[simp] theorem State.hostSends_KS (bytes : List Byte) (s : State) :
    (s.hostSends bytes).KS = s.KS := rfl
@[simp] theorem State.hostSends_CUR (bytes : List Byte) (s : State) :
    (s.hostSends bytes).CUR = s.CUR := rfl
@[simp] theorem State.hostSends_AVAR (bytes : List Byte) (s : State) :
    (s.hostSends bytes).AVAR = s.AVAR := rfl
@[simp] theorem State.hostSends_AVALID (bytes : List Byte) (s : State) :
    (s.hostSends bytes).AVALID = s.AVALID := rfl
@[simp] theorem State.hostSends_H (bytes : List Byte) (s : State) :
    (s.hostSends bytes).H = s.H := rfl
@[simp] theorem State.hostSends_HBUF (bytes : List Byte) (s : State) :
    (s.hostSends bytes).HBUF = s.HBUF := rfl
@[simp] theorem State.hostSends_HBUFN (bytes : List Byte) (s : State) :
    (s.hostSends bytes).HBUFN = s.HBUFN := rfl
@[simp] theorem State.hostSends_HLEN (bytes : List Byte) (s : State) :
    (s.hostSends bytes).HLEN = s.HLEN := rfl
@[simp] theorem State.hostSends_HSTATE (bytes : List Byte) (s : State) :
    (s.hostSends bytes).HSTATE = s.HSTATE := rfl
@[simp] theorem State.hostSends_opens (bytes : List Byte) (s : State) :
    (s.hostSends bytes).opens = s.opens := rfl

@[simp] theorem State.hostAssertsReset_params (s : State) :
    (s.hostAssertsReset).params = s.params := rfl
@[simp] theorem State.hostAssertsReset_cmdIn (s : State) :
    (s.hostAssertsReset).cmdIn = s.cmdIn := rfl
@[simp] theorem State.hostAssertsReset_respOut (s : State) :
    (s.hostAssertsReset).respOut = s.respOut := rfl
@[simp] theorem State.hostAssertsReset_RESET (s : State) :
    (s.hostAssertsReset).RESET = true := rfl
@[simp] theorem State.hostAssertsReset_S (s : State) :
    (s.hostAssertsReset).S = s.S := rfl
@[simp] theorem State.hostAssertsReset_KVALID (s : State) :
    (s.hostAssertsReset).KVALID = s.KVALID := rfl
@[simp] theorem State.hostAssertsReset_C2V (s : State) :
    (s.hostAssertsReset).C2V = s.C2V := rfl
@[simp] theorem State.hostAssertsReset_V2C (s : State) :
    (s.hostAssertsReset).V2C = s.V2C := rfl
@[simp] theorem State.hostAssertsReset_TVALID (s : State) :
    (s.hostAssertsReset).TVALID = s.TVALID := rfl
@[simp] theorem State.hostAssertsReset_FB (s : State) :
    (s.hostAssertsReset).FB = s.FB := rfl
@[simp] theorem State.hostAssertsReset_KS (s : State) :
    (s.hostAssertsReset).KS = s.KS := rfl
@[simp] theorem State.hostAssertsReset_CUR (s : State) :
    (s.hostAssertsReset).CUR = s.CUR := rfl
@[simp] theorem State.hostAssertsReset_AVAR (s : State) :
    (s.hostAssertsReset).AVAR = s.AVAR := rfl
@[simp] theorem State.hostAssertsReset_AVALID (s : State) :
    (s.hostAssertsReset).AVALID = s.AVALID := rfl
@[simp] theorem State.hostAssertsReset_H (s : State) :
    (s.hostAssertsReset).H = s.H := rfl
@[simp] theorem State.hostAssertsReset_HBUF (s : State) :
    (s.hostAssertsReset).HBUF = s.HBUF := rfl
@[simp] theorem State.hostAssertsReset_HBUFN (s : State) :
    (s.hostAssertsReset).HBUFN = s.HBUFN := rfl
@[simp] theorem State.hostAssertsReset_HLEN (s : State) :
    (s.hostAssertsReset).HLEN = s.HLEN := rfl
@[simp] theorem State.hostAssertsReset_HSTATE (s : State) :
    (s.hostAssertsReset).HSTATE = s.HSTATE := rfl
@[simp] theorem State.hostAssertsReset_opens (s : State) :
    (s.hostAssertsReset).opens = s.opens := rfl

end Sys2Proof.Machine
end

