-- ==== Sys2Proof/Laws/Ops.lean ====
section
/-! SUPPORT. What the shared operations can do: the checks of a command, the response frames, and the shape of a command's
answer. -/

namespace Sys2Proof.Machine

/-! ### The checks of a command -/

/-- A command whose length and state pass its checks is performed (R90). -/
theorem guarded_of_ready {f : Status} {perform : State → Result} {s : State} :
    guarded true f true perform s = perform s := rfl

/-- A command of a wrong length raises its length fault whatever the state (R90, R258). -/
theorem guarded_of_length {f : Status} {ready : Bool} {perform : State → Result} {s : State} :
    guarded false f ready perform s = .next (s.emit f []) := rfl

/-- A command of an allowed length without its state raises NotInitialised (R90, R92). -/
theorem guarded_of_not_ready {f : Status} {perform : State → Result} {s : State} :
    guarded true f false perform s = .next (s.emit .notInitialised []) := rfl

/-- Everything `guarded` can do. -/
theorem guarded_cases {lenOk ready : Bool} {f : Status} {perform : State → Result} {s t : State}
    (h : guarded lenOk f ready perform s = .next t) :
    (lenOk = false ∧ t = s.emit f []) ∨
    (lenOk = true ∧ ready = false ∧ t = s.emit .notInitialised []) ∨
    (lenOk = true ∧ ready = true ∧ perform s = .next t) := by
  cases lenOk <;> cases ready
  · exact .inl ⟨rfl, by simpa [guarded, raise] using h.symm⟩
  · exact .inl ⟨rfl, by simpa [guarded, raise] using h.symm⟩
  · exact .inr (.inl ⟨rfl, rfl, by simpa [guarded, raise] using h.symm⟩)
  · exact .inr (.inr ⟨rfl, rfl, h⟩)

@[simp] theorem lenIsBlock_eq_true {inp : List Byte} : lenIsBlock inp = true ↔ inp.length = 16 := by
  simp [lenIsBlock]

@[simp] theorem lenIsBlock_eq_false {inp : List Byte} : lenIsBlock inp = false ↔ inp.length ≠ 16 := by
  simp [lenIsBlock]

@[simp] theorem lenIsZero_eq_true {inp : List Byte} : lenIsZero inp = true ↔ inp.length = 0 := by
  simp [lenIsZero]

@[simp] theorem lenIsZero_eq_false {inp : List Byte} : lenIsZero inp = false ↔ inp.length ≠ 0 := by
  simp [lenIsZero]

@[simp] theorem lenFits_eq_true {inp : List Byte} {s : State} :
    lenFits inp s = true ↔ inp.length ≤ s.params.MAXSEG := by
  simp [lenFits]

@[simp] theorem lenFits_eq_false {inp : List Byte} {s : State} :
    lenFits inp s = false ↔ s.params.MAXSEG < inp.length := by
  simp [lenFits]

@[simp] theorem hashActive_eq_true {s : State} : hashActive s = true ↔ s.HSTATE = .active := by
  simp [hashActive]

@[simp] theorem hashActive_eq_false {s : State} : hashActive s = false ↔ s.HSTATE = .idle := by
  cases h : s.HSTATE <;> simp [hashActive, h]

/-! ### Response frames -/

theorem respond_eq {out : List Byte} {s : State} : respond out s = .next (s.emit .ok out) := rfl

theorem raise_eq {f : Status} {s : State} : raise f s = .next (s.emit f []) := rfl

@[simp] theorem responseFrame_length (st : Status) (out : List Byte) :
    (responseFrame st out).length = 4 + out.length := by
  simp [responseFrame]

/-- The fourth byte of a response frame is the status code (R85). -/
theorem responseFrame_status (st : Status) (out : List Byte) : (responseFrame st out).getD 3 0 = st.code := by
  change (responseWord st out.length).extractLsb' 24 8 = st.code
  apply BitVec.eq_of_getLsbD_eq
  intro i hi
  simp only [responseWord, BitVec.getLsbD_extractLsb', BitVec.getLsbD_append]
  rw [if_neg (by omega), if_neg (by omega)]
  simp only [hi, decide_true, Bool.true_and]
  congr 1
  omega

theorem code_injective {a b : Status} (h : a.code = b.code) : a = b := by
  cases a <;> cases b <;> first | rfl | exact absurd h (by decide)

/-- Two response frames that are equal carry the same status. -/
theorem status_of_frame {a b : Status} {x y : List Byte} (h : responseFrame a x = responseFrame b y) : a = b :=
  code_injective (by rw [← responseFrame_status a x, ← responseFrame_status b y, h])

/-- Two response frames that are equal carry the same payload. -/
theorem payload_of_frame {a b : Status} {x y : List Byte} (h : responseFrame a x = responseFrame b y) : x = y :=
  congrArg (List.drop 4) h

/-- A command's answer carries one status. -/
theorem status_of_answer {s t : State} {a b : Status} {out : List Byte} (h : t.respOut = s.respOut ++ responseFrame a out) :
    (∃ out, t.respOut = s.respOut ++ responseFrame b out) ↔ a = b := by
  constructor
  · rintro ⟨o, ho⟩
    rw [h] at ho
    exact status_of_frame (List.append_cancel_left ho)
  · rintro rfl
    exact ⟨out, h⟩

/-- An answer without a payload is four bytes (R85). -/
theorem emit_nil (f : Status) (s : State) :
    s.emit f [] = { s with respOut := s.respOut ++ [0x00, 0x00, 0x00, f.code] } := by
  cases f <;> rfl

end Sys2Proof.Machine
end

