-- ==== Sys2Proof/Laws/Scrambler.lean ====
section
/-! SUPPORT. What scanning nibbles, building the table and regrouping can do (42_nibble_scrambler R152 to R165). -/

namespace Sys2Proof.Machine

/-! ### The scan -/

theorem mem_seeNibble {order : List Nibble} {v u : Nibble} : u ∈ seeNibble order v ↔ u ∈ order ∨ u = v := by
  unfold seeNibble
  split
  · rename_i h
    constructor
    · exact .inl
    · rintro (hu | rfl)
      · exact hu
      · exact h
  · simp

theorem seeNibble_nodup {order : List Nibble} (v : Nibble) (h : order.Nodup) : (seeNibble order v).Nodup := by
  unfold seeNibble
  split
  · exact h
  · rename_i hv
    rw [List.nodup_append]
    refine ⟨h, by simp, ?_⟩
    intro a ha b hb
    simp only [List.mem_singleton] at hb
    subst hb
    exact fun hab => hv (hab ▸ ha)

/-- A scan keeps the list free of repeats and adds exactly the values scanned (R152). -/
theorem scan_spec (L : List Nibble) : ∀ order : List Nibble, order.Nodup →
    (L.foldl seeNibble order).Nodup ∧ ∀ u, u ∈ L.foldl seeNibble order ↔ u ∈ order ∨ u ∈ L := by
  induction L with
  | nil => intro order h; exact ⟨h, by simp⟩
  | cons v L ih =>
    intro order h
    obtain ⟨h1, h2⟩ := ih _ (seeNibble_nodup v h)
    refine ⟨h1, fun u => ?_⟩
    rw [List.foldl_cons, h2, mem_seeNibble, List.mem_cons]
    tauto

theorem mem_ascending (v : Nibble) : v ∈ ascending := by
  have : ∀ v : Nibble, v ∈ ascending := by decide
  exact this v

theorem cellOrder_nodup (key : List Byte) : (cellOrder key).Nodup := (scan_spec _ _ (by simp)).1

/-- Every nibble value has a cell (R153). -/
theorem mem_cellOrder (key : List Byte) (v : Nibble) : v ∈ cellOrder key :=
  ((scan_spec _ _ (by simp)).2 v).mpr (.inr (List.mem_append_right _ (mem_ascending v)))

/-- Sixteen cells are assigned (R152: "At the end n = 16"). -/
@[simp] theorem cellOrder_length (key : List Byte) : (cellOrder key).length = 16 := by
  have h : (cellOrder key).Perm ascending :=
    (List.perm_ext_iff_of_nodup (cellOrder_nodup key) (by decide)).mpr fun v =>
      ⟨fun _ => mem_ascending v, fun _ => mem_cellOrder key v⟩
  exact h.length_eq

theorem tableC2V_getElem (key : List Byte) (k : Nat) (h : k < 16) :
    (tableC2V key)[k] = (cellOrder key)[k]'(by simpa using h) := by
  simp [tableC2V]

theorem idxOf_cellOrder_lt (key : List Byte) (v : Nibble) : (cellOrder key).idxOf v < 16 := by
  have := List.idxOf_lt_length_of_mem (mem_cellOrder key v)
  simpa using this

theorem tableV2C_getElem (key : List Byte) (v : Nat) (h : v < 16) :
    ((tableV2C key)[v]).toNat = (cellOrder key).idxOf (BitVec.ofNat 4 v) := by
  have := idxOf_cellOrder_lt key (BitVec.ofNat 4 v)
  simp only [tableV2C, Vector.getElem_ofFn, BitVec.toNat_ofNat]
  exact Nat.mod_eq_of_lt (by omega)

/-! ### Regrouping -/

@[simp] theorem combined_length (V2C : Vector Nibble 16) (x : List Nibble) :
    (combined V2C x).length = 2 * x.length := by
  simp [combined]; omega

@[simp] theorem regroup_length (C2V : Vector Nibble 16) : (comb : List Coord) → (x : List Nibble) →
    (regroup C2V comb x).length = x.length
  | [], x => by simp [regroup]
  | [_], x => by simp [regroup]
  | _ :: _ :: _, [] => by simp [regroup]
  | r :: c :: comb, _ :: x => by simp [regroup, regroup_length C2V comb x]

/-- Reconstruction as R159 writes it: output nibble `q` from elements `2q` and `2q+1`, or passed through. -/
theorem regroup_getElem (C2V : Vector Nibble 16) : (comb : List Coord) → (x : List Nibble) → (q : Nat) →
    (h : q < x.length) → (regroup C2V comb x)[q]'(by simpa using h) =
      if 2 * q + 1 < comb.length then valAt C2V (comb.getD (2 * q) 0) (comb.getD (2 * q + 1) 0) else x[q]
  | [], x, q, h => by simp [regroup]
  | [_], x, q, h => by simp [regroup]
  | _ :: _ :: _, [], q, h => by simp at h
  | r :: c :: comb, _ :: x, 0, h => by simp [regroup]
  | r :: c :: comb, _ :: x, q + 1, h => by
    have := regroup_getElem C2V comb x q (by simpa using h)
    simp only [regroup, List.getElem_cons_succ, this, List.length_cons]
    have e : 2 * (q + 1) = 2 * q + 1 + 1 := by omega
    simp only [e, List.getD_cons_succ]
    congr 1
    simp only [eq_iff_iff]
    omega

/-- SCRAMBLE returns as many bytes as it takes (R161). -/
@[simp] theorem scr_length (C2V V2C : Vector Nibble 16) (inp : List Byte) : (scr C2V V2C inp).length = inp.length :=
  packNibbles_length inp.length _ (by simp)

/-- The nibbles of what SCRAMBLE returns. -/
theorem dataNibbles_scr (C2V V2C : Vector Nibble 16) (inp : List Byte) :
    dataNibbles (scr C2V V2C inp) = regroup C2V (combined V2C (dataNibbles inp)) (dataNibbles inp) :=
  dataNibbles_packNibbles inp.length _ (by simp)

/-- UNSCRAMBLE returns as many bytes as it takes (R162). -/
@[simp] theorem unscr_length (C2V : Vector Nibble 16) (inp : List Byte) : (unscr C2V inp).length = inp.length := by
  simp [unscr]

/-- Nibble `q` of a buffer as an element of its nibble sequence (R157). -/
theorem nibbleAt_eq (X : List Byte) (q : Nat) (h : q < 2 * X.length) :
    nibbleAt X q = (dataNibbles X)[q]'(by simpa using h) := by
  induction X generalizing q with
  | nil => simp at h
  | cons b X ih =>
    match q with
    | 0 => simp [nibbleAt]
    | 1 => simp [nibbleAt]
    | q + 2 =>
      have := ih q (by simp at h; omega)
      simp only [dataNibbles_cons, List.getElem_cons_succ, ← this]
      unfold nibbleAt
      rw [show (q + 2) / 2 = q / 2 + 1 by omega, show (q + 2) % 2 = q % 2 by omega]
      simp

end Sys2Proof.Machine
end

