-- ==== Sys2Proof/Laws/Adapter.lean ====
section
/-! SUPPORT. What taking keystream bytes can do (43_ofb_adapter R179, R180). -/

namespace Sys2Proof.Machine

@[simp] theorem nextKS_length (n : Nat) (s : State) : (s.nextKS n).1.length = n := by
  induction n generalizing s with
  | zero => rfl
  | succ n ih => simp [State.nextKS, ih]

/-- Taking keystream bytes in two parts is taking them at once (R186). -/
theorem nextKS_add (m n : Nat) (s : State) :
    s.nextKS (m + n) = ((s.nextKS m).1 ++ ((s.nextKS m).2.nextKS n).1, ((s.nextKS m).2.nextKS n).2) := by
  induction m generalizing s with
  | zero => simp [State.nextKS]
  | succ m ih => rw [show m + 1 + n = (m + n) + 1 by omega]; simp [State.nextKS, ih]

/-- The state after `n` keystream bytes (R180): the cursor, and the blocks it has reached. Nothing else changes. -/
theorem nextKS_state (n : Nat) (s : State) :
    (s.nextKS n).2 =
      { s with
        CUR := ⟨(s.CUR.val + n) % 16, Nat.mod_lt _ (by decide)⟩
        FB := (encBlock s.S)^[(s.CUR.val + n) / 16] s.FB
        KS := s.blockAhead ((s.CUR.val + n) / 16) } := by
  induction n with
  | zero =>
    have h := s.CUR.isLt
    simp [State.nextKS, State.blockAhead, Nat.mod_eq_of_lt h, Nat.div_eq_of_lt h]
  | succ n ih =>
    rw [nextKS_add n 1 s, ih]
    simp only [State.nextKS, State.takeByte]
    split
    · rename_i hc
      have hc' : (s.CUR.val + n) % 16 = 15 := congrArg Fin.val hc
      have e1 : (s.CUR.val + (n + 1)) / 16 = (s.CUR.val + n) / 16 + 1 := by omega
      have e2 : (s.CUR.val + (n + 1)) % 16 = 0 := by omega
      simp only [e1, e2, State.refill, State.blockAhead, Function.iterate_succ_apply']
      simp
    · rename_i hc
      have hc' : (s.CUR.val + n) % 16 ≠ 15 := fun h => hc (Fin.ext h)
      have e1 : (s.CUR.val + (n + 1)) / 16 = (s.CUR.val + n) / 16 := by omega
      have e2 : (s.CUR.val + (n + 1)) % 16 = (s.CUR.val + n) % 16 + 1 := by omega
      have e3 : (⟨(s.CUR.val + n) % 16, Nat.mod_lt _ (by decide)⟩ : Fin 16) + 1 =
          ⟨(s.CUR.val + n) % 16 + 1, by omega⟩ := by
        apply Fin.ext
        have hlt : (s.CUR.val + n) % 16 + 1 < 16 := by omega
        simp [Fin.val_add, Nat.mod_eq_of_lt hlt]
      simp only [e1, e2, e3]

/-- Keystream byte `i` of the bytes taken (R180). -/
theorem nextKS_getElem (n i : Nat) (s : State) (h : i < n) :
    (s.nextKS n).1[i]'(by simpa using h) =
      (s.blockAhead ((s.CUR.val + i) / 16))[(s.CUR.val + i) % 16]'(Nat.mod_lt _ (by decide)) := by
  obtain ⟨k, rfl⟩ : ∃ k, n = i + (k + 1) := ⟨n - i - 1, by omega⟩
  simp only [nextKS_add i (k + 1) s]
  rw [List.getElem_append_right (by simp)]
  simp only [nextKS_length, Nat.sub_self]
  simp [State.nextKS, State.takeByte, nextKS_state i s]

/-- The bytes taken are the bytes of the keystream by position (R180). -/
theorem nextKS_bytes (n : Nat) (s : State) : (s.nextKS n).1 = s.keystreamAhead n := by
  apply List.ext_getElem
  · simp [State.keystreamAhead]
  · intro i h1 h2
    rw [nextKS_getElem n i s (by simpa using h1)]
    have : (s.CUR.val + i) % 16 < 16 := Nat.mod_lt _ (by decide)
    simp [State.keystreamAhead, Vector.getD, this]

/-- What a session XORs into a segment is as long as the segment (R182, R183). -/
@[simp] theorem maskOf_length (s : State) (Y : List Byte) : (maskOf s Y).length = Y.length := by
  unfold maskOf
  split <;> simp

/-- What XFORM does once its checks have passed (R182, R183). -/
theorem xformSteps_eq (inp : List Byte) (s : State) :
    xformSteps inp s =
      .next (State.emit .ok (xorBytes inp (maskOf s (s.keystreamAhead inp.length)))
        { s with
          CUR := Fin.ofNat 16 (s.CUR.val + inp.length)
          FB := (encBlock s.S)^[(s.CUR.val + inp.length) / 16] s.FB
          KS := s.blockAhead ((s.CUR.val + inp.length) / 16) }) := by
  rw [xformSteps, respond_eq, nextKS_bytes, nextKS_state]
  rfl

end Sys2Proof.Machine
end

