-- ==== Sys2Proof/Laws/BlockCipher.lean ====
section
/-! SUPPORT. Laws of the key schedule's mixing loop (40_key_schedule R114) and of one round of the cipher (41_block_cipher R132,
R135). -/

namespace Sys2Proof.Machine

/-- The low five bits of a word as a remainder (R11, R136). -/
theorem rotAmount_eq (w : Word) : rotAmount w = w.toNat % 32 := by
  rw [rotAmount, BitVec.toNat_and]
  exact Nat.and_two_pow_sub_one_eq_mod w.toNat 5

/-- One more turn of the mixing loop, at its end. -/
theorem mixTurns_succ (n : Nat) (m : Mixing) : mixTurns (n + 1) m = mixStep (mixTurns n m) := by
  induction n generalizing m with
  | zero => rfl
  | succ n ih => rw [mixTurns, ih, mixTurns]

/-- Where the mixing loop stands after `n` turns (R114). -/
theorem mixTurns_indices (n : Nat) (m : Mixing) (hi : m.i = 0) (hj : m.j = 0) :
    (mixTurns n m).i.val = n % 44 ∧ (mixTurns n m).j.val = n % 4 := by
  induction n with
  | zero => simp [mixTurns, hi, hj]
  | succ n ih =>
    obtain ⟨h1, h2⟩ := ih
    rw [mixTurns_succ]
    simp only [mixStep, Fin.val_add, h1, h2]
    exact ⟨Nat.mod_add_mod n 44 1, Nat.mod_add_mod n 4 1⟩

/-- A decryption round undoes the encryption round of its number. -/
theorem decRound_encRound (S : Vector Word 44) (i : Nat) (w : Words) : decRound S i (encRound S i w) = w := by
  simp [decRound, encRound, rotr32_rotl32]

/-- An encryption round undoes the decryption round of its number. -/
theorem encRound_decRound (S : Vector Word 44) (i : Nat) (w : Words) : encRound S i (decRound S i w) = w := by
  simp [decRound, encRound, rotl32_rotr32]

end Sys2Proof.Machine
end

