-- ==== Sys2Proof/Laws/Decode.lean ====
section
/-! SUPPORT. Laws of command words and frames: which bits the mask keeps, the LEN field, and taking one frame off a stream. -/

namespace Sys2Proof

open Machine

theorem cwMask_low (i : Nat) (h : i < 17) : cwMask.getLsbD i = false := by
  have : ∀ i : Fin 17, cwMask.getLsbD i.val = false := by decide
  exact this ⟨i, h⟩

theorem cwMask_high (i : Nat) (h : 17 ≤ i) (h' : i < 32) : cwMask.getLsbD i = true := by
  have : ∀ i : Fin 32, 17 ≤ i.val → cwMask.getLsbD i.val = true := by decide
  exact this ⟨i, h'⟩ h

/-- The mask drops the LEN field (R87). -/
theorem masked_or_len (c : Word) (x : BitVec 17) : (c ||| x.setWidth 32) &&& cwMask = c &&& cwMask := by
  apply BitVec.eq_of_getLsbD_eq
  intro i hi
  simp only [BitVec.getLsbD_and, BitVec.getLsbD_or, BitVec.getLsbD_setWidth]
  by_cases h : i < 17
  · simp [cwMask_low i h]
  · simp [BitVec.getLsbD_of_ge x i (by omega)]

/-- A command word is its masked part with its LEN field (R81). -/
theorem masked_with_len (cw : Word) : (cw &&& cwMask) ||| (cw.extractLsb' 0 17).setWidth 32 = cw := by
  apply BitVec.eq_of_getLsbD_eq
  intro i hi
  simp only [BitVec.getLsbD_and, BitVec.getLsbD_or, BitVec.getLsbD_setWidth, BitVec.getLsbD_extractLsb']
  by_cases h : i < 17
  · rw [cwMask_low i h]; simp [h, hi]
  · rw [cwMask_high i (by omega) hi]; simp [h]

/-- The LEN field of a match value with a length in it is that length (R81). -/
theorem lenField_or (c : Word) (x : BitVec 17) (hc : c &&& cwMask = c) : lenField (c ||| x.setWidth 32) = x.toNat := by
  unfold lenField
  congr 1
  apply BitVec.eq_of_getLsbD_eq
  intro i hi
  have hci : c.getLsbD i = false := by rw [← hc]; simp [cwMask_low i hi]
  simp only [BitVec.getLsbD_extractLsb', BitVec.getLsbD_or, BitVec.getLsbD_setWidth, Nat.zero_add]
  simp [hi, hci]
  omega

theorem matchValue_masked (i : Instr) : i.matchValue &&& cwMask = i.matchValue := by
  cases i <;> (simp only [Instr.matchValue]; decide)

theorem lenField_lt (cw : Word) : lenField cw < 131072 := (cw.extractLsb' 0 17).isLt

theorem length_toNat (n : Nat) (h : n ≤ maxLen) : (BitVec.ofNat 17 n).toNat = n := by
  rw [BitVec.toNat_ofNat]
  exact Nat.mod_eq_of_lt (by unfold maxLen at h; omega)

theorem wellFormed_iff (i : Instr) : wellFormed i = true ↔ i.payload.length ≤ maxLen := by
  simp [wellFormed]

/-- Taking a frame whose payload is all there (R80). -/
theorem takeFrame_append (b0 b1 b2 b3 : Byte) (inp rest : List Byte)
    (h : inp.length = lenField (le32 b0 b1 b2 b3)) :
    takeFrame (b0 :: b1 :: b2 :: b3 :: (inp ++ rest)) = some (le32 b0 b1 b2 b3, inp, rest) := by
  simp [takeFrame, ← h]

/-- What taking a frame tells of the stream (R80, R89). -/
theorem takeFrame_eq_some {bytes : List Byte} {cw : Word} {inp rest : List Byte}
    (h : takeFrame bytes = some (cw, inp, rest)) : inp.length = lenField cw ∧ bytes = bytesLe32 cw ++ inp ++ rest := by
  unfold takeFrame at h
  split at h
  · rename_i b0 b1 b2 b3 tl
    split at h
    · rename_i hle
      simp only [Option.some.injEq, Prod.mk.injEq] at h
      obtain ⟨rfl, rfl, rfl⟩ := h
      refine ⟨by simp [hle], ?_⟩
      rw [bytesLe32_le32]
      simp
    · cases h
  · cases h

/-- No frame is taken exactly when the stream holds no whole frame (R80). -/
theorem takeFrame_eq_none {bytes : List Byte} :
    takeFrame bytes = none ↔
      bytes.length < 4 ∨ ∃ b0 b1 b2 b3 tl, bytes = b0 :: b1 :: b2 :: b3 :: tl ∧ tl.length < lenField (le32 b0 b1 b2 b3) := by
  match bytes with
  | [] => simp [takeFrame]
  | [_] => simp [takeFrame]
  | [_, _] => simp [takeFrame]
  | [_, _, _] => simp [takeFrame]
  | b0 :: b1 :: b2 :: b3 :: tl =>
    simp only [takeFrame, List.length_cons]
    constructor
    · intro h
      split at h
      · cases h
      · exact .inr ⟨b0, b1, b2, b3, tl, rfl, by omega⟩
    · rintro (h | ⟨_, _, _, _, _, h, hl⟩)
      · omega
      · cases h
        rw [if_neg (by omega)]

/-- A row of the opcode map that a masked word names is the only one: decoding it gives that row's command (R87). -/
theorem decodeCommand_eq_some {cw : Word} {inp : List Byte} {i : Instr} (h : decodeCommand cw inp = some i) :
    i.matchValue = cw &&& cwMask ∧ i.payload = inp := by
  unfold decodeCommand at h
  rw [Option.map_eq_some_iff] at h
  obtain ⟨row, hrow, rfl⟩ := h
  have hm := List.find?_some hrow
  have hmem := List.mem_of_find?_eq_some hrow
  simp only [beq_iff_eq] at hm
  rw [← hm]
  simp only [opcodeMap, List.mem_cons, List.not_mem_nil, or_false] at hmem
  rcases hmem with h | h | h | h | h | h | h | h | h | h | h | h | h <;> subst h <;> exact ⟨rfl, rfl⟩

/-- A masked word that is in no row decodes to nothing (R88). -/
theorem decodeCommand_eq_none {cw : Word} {inp : List Byte} :
    decodeCommand cw inp = none ↔ ∀ row ∈ opcodeMap, row.1 ≠ cw &&& cwMask := by
  unfold decodeCommand
  simp [List.find?_eq_none]

end Sys2Proof
end

