-- ==== Sys2Proof/Laws/Exec.lean ====
section
/-! SUPPORT. Each command as its checks and what it performs: cite these with `guarded_cases` instead of unfolding `exec`. -/

namespace Sys2Proof.Machine

theorem exec_keyinit (inp : List Byte) (s : State) : exec (.keyinit inp) s =
    guarded (lenIsBlock inp) .configurationError true (fun s => respond [] (keySteps inp s)) s := rfl

theorem exec_encblk (inp : List Byte) (s : State) : exec (.encblk inp) s =
    guarded (lenIsBlock inp) .lengthError s.KVALID (fun s => respond (encBlock s.S (blockOf inp)).toList s) s := rfl

theorem exec_decblk (inp : List Byte) (s : State) : exec (.decblk inp) s =
    guarded (lenIsBlock inp) .lengthError s.KVALID (fun s => respond (decBlock s.S (blockOf inp)).toList s) s := rfl

theorem exec_nsinit (inp : List Byte) (s : State) : exec (.nsinit inp) s =
    guarded (lenFits inp s) .lengthError true (fun s => respond [] (tableSteps inp s)) s := rfl

theorem exec_scramble (inp : List Byte) (s : State) : exec (.scramble inp) s =
    guarded (lenFits inp s) .lengthError s.TVALID (fun s => respond (scr s.C2V s.V2C inp) s) s := rfl

theorem exec_unscramble (inp : List Byte) (s : State) : exec (.unscramble inp) s =
    guarded (lenFits inp s) .lengthError s.TVALID (fun s => respond (unscr s.C2V inp) s) s := rfl

theorem exec_ainitP (inp : List Byte) (s : State) : exec (.ainitP inp) s =
    guarded (lenIsBlock inp) .configurationError true (fun s => respond [] (primitiveSteps inp s)) s := rfl

theorem exec_ainitH (inp : List Byte) (s : State) : exec (.ainitH inp) s =
    guarded (lenIsBlock inp) .configurationError true (fun s => respond [] (hybridSteps inp s)) s := rfl

theorem exec_ainitH2 (inp : List Byte) (s : State) : exec (.ainitH2 inp) s =
    guarded (lenIsBlock inp) .configurationError true (fun s => respond [] (hybridSteps inp s)) s := rfl

theorem exec_xform (inp : List Byte) (s : State) : exec (.xform inp) s =
    guarded (lenFits inp s) .lengthError s.AVALID (xformSteps inp) s := rfl

theorem exec_hinit (inp : List Byte) (s : State) : exec (.hinit inp) s =
    guarded (lenIsZero inp) .lengthError true
      (fun s => respond [] { s with H := hashInit, HLEN := 0, HBUFN := 0, HSTATE := .active }) s := rfl

theorem exec_hupdate (inp : List Byte) (s : State) : exec (.hupdate inp) s =
    guarded (lenFits inp s) .lengthError (hashActive s) (updateSteps inp) s := rfl

theorem exec_hfinal (inp : List Byte) (s : State) : exec (.hfinal inp) s =
    guarded (lenIsZero inp) .lengthError (hashActive s) finalSteps s := rfl

/-- What HUPDATE does past its first two checks: the message limit, or absorbing (R202, R209). -/
theorem updateSteps_cases {inp : List Byte} {s t : State} (h : updateSteps inp s = .next t) :
    (hmaxlen < s.HLEN.toNat + inp.length ∧ t = s.emit .lengthError []) ∨
    (s.HLEN.toNat + inp.length ≤ hmaxlen ∧
      t = State.emit .ok [] { s.absorb inp with HLEN := s.HLEN + BitVec.ofNat 64 inp.length }) := by
  unfold updateSteps at h
  split at h
  · rename_i hlt
    exact .inl ⟨hlt, by cases h; rfl⟩
  · rename_i hle
    exact .inr ⟨by omega, by cases h; rfl⟩

end Sys2Proof.Machine
end

