-- ==== Sys2Proof/Laws/Hasher.lean ====
section
/-! SUPPORT. What absorbing message bytes can do (44_sha1 R203, R206), against the message as a whole. -/

namespace Sys2Proof.Machine

@[simp] theorem absorbAll_nil (r : HashBuffer) : absorbAll [] r = r := rfl

@[simp] theorem absorbAll_cons (b : Byte) (bs : List Byte) (r : HashBuffer) :
    absorbAll (b :: bs) r = absorbAll bs (absorbByte r b) := rfl

/-- Absorbing in two parts is absorbing at once (R207). -/
theorem absorbAll_append (X Y : List Byte) (r : HashBuffer) : absorbAll (X ++ Y) r = absorbAll Y (absorbAll X r) := by
  simp [absorbAll]

@[simp] theorem absorb_hashBuffer (bs : List Byte) (s : State) : (s.absorb bs).hashBuffer = absorbAll bs s.hashBuffer := rfl

theorem absorb_append (X Y : List Byte) (s : State) : s.absorb (X ++ Y) = (s.absorb X).absorb Y := by
  simp only [State.absorb, absorbAll_append]
  rfl

/-- How far the buffer has filled (R42). -/
theorem absorbAll_HBUFN (bs : List Byte) (r : HashBuffer) :
    (absorbAll bs r).HBUFN.val = (r.HBUFN.val + bs.length) % 64 := by
  induction bs generalizing r with
  | nil => simp [Nat.mod_eq_of_lt r.HBUFN.isLt]
  | cons b bs ih =>
    rw [absorbAll_cons, ih, List.length_cons]
    have := r.HBUFN.isLt
    by_cases h : r.HBUFN = 63
    · have h' : r.HBUFN.val = 63 := congrArg Fin.val h
      have e : (absorbByte r b).HBUFN.val = 0 := by simp [absorbByte, h]
      omega
    · have h' : r.HBUFN.val ≠ 63 := fun e => h (Fin.ext e)
      have e : (absorbByte r b).HBUFN.val = r.HBUFN.val + 1 := by
        simp only [absorbByte, if_neg h, Fin.val_add]
        exact Nat.mod_eq_of_lt (by simp; omega)
      omega

/-! ### The message schedule -/

@[simp] theorem blockWords_length (M : Vector Byte 64) : (blockWords M).length = 16 := by simp [blockWords]

theorem extendWords_length (W : List Word) (h : W.length = 16) (k : Nat) : (extendWords W k).length = 16 + k := by
  induction k with
  | zero => exact h
  | succ k ih => rw [extendWords, List.length_append, ih]; rfl

/-- Extending the schedule keeps the words it has (R204). -/
theorem extendWords_getD_of_le (W : List Word) (h : W.length = 16) (k n t : Nat) (hkn : k ≤ n) (ht : t < 16 + k) :
    (extendWords W n).getD t 0 = (extendWords W k).getD t 0 := by
  induction n with
  | zero => rw [Nat.le_zero.mp hkn]
  | succ n ih =>
    rcases Nat.lt_or_ge n k with hlt | hge
    · rw [show n + 1 = k by omega]
    · rw [← ih hge, extendWords]
      simp only [List.getD_eq_getElem?_getD]
      rw [List.getElem?_append_left (by rw [extendWords_length W h]; omega)]

/-- The first sixteen words of the schedule are the block's (R204). -/
theorem extendWords_getD_of_lt (W : List Word) (h : W.length = 16) (n t : Nat) (ht : t < 16) :
    (extendWords W n).getD t 0 = W.getD t 0 := extendWords_getD_of_le W h 0 n t (Nat.zero_le n) ht

/-- Every later word of the schedule, from the words before it (R204). -/
theorem extendWords_getD_of_ge (W : List Word) (h : W.length = 16) (n t : Nat) (h1 : 16 ≤ t) (h2 : t < 16 + n) :
    (extendWords W n).getD t 0 =
      rotl32 (((extendWords W n).getD (t - 3) 0 ^^^ (extendWords W n).getD (t - 8) 0) ^^^
        ((extendWords W n).getD (t - 14) 0 ^^^ (extendWords W n).getD (t - 16) 0)) 1 := by
  obtain ⟨k, rfl⟩ : ∃ k, t = 16 + k := ⟨t - 16, by omega⟩
  have old (j : Nat) (hj : j < 16 + k) := extendWords_getD_of_le W h k n j (by omega) hj
  have new : (extendWords W n).getD (16 + k) 0 = (extendWords W (k + 1)).getD (16 + k) 0 :=
    extendWords_getD_of_le W h (k + 1) n (16 + k) (by omega) (by omega)
  rw [new, old (16 + k - 3) (by omega), old (16 + k - 8) (by omega), old (16 + k - 14) (by omega), old (16 + k - 16) (by omega),
    extendWords]
  simp [List.getD_eq_getElem?_getD, extendWords_length W h]

/-- The compression from its schedule and its working words (R204), with both under names, so that neither is unfolded. -/
theorem compress_eq (H : Vector Word 5) (M : Vector Byte 64) (W : List Word) (v : HashWords)
    (hW : W = extendWords (blockWords M) 64) (hv : v = { a := H[0], b := H[1], c := H[2], d := H[3], e := H[4] }) :
    compress H M =
      #v[H[0] + (hashSteps W 80 v).a, H[1] + (hashSteps W 80 v).b, H[2] + (hashSteps W 80 v).c,
        H[3] + (hashSteps W 80 v).d, H[4] + (hashSteps W 80 v).e] := by
  rw [hW, hv, compress.eq_1]

/-! ### Against the whole message -/

theorem hashBlockOf_getElem (m : List Byte) (i : Nat) (h : i < 64) : (hashBlockOf m)[i] = m.getD i 0 :=
  Vector.getElem_ofFn _

theorem hashBlockOf_eq (M : Vector Byte 64) (m : List Byte) (h : ∀ i, (hi : i < 64) → M[i] = m.getD i 0) :
    M = hashBlockOf m :=
  Vector.ext fun i hi => (h i hi).trans (hashBlockOf_getElem m i hi).symm

theorem getD_drop (m : List Byte) (k i : Nat) : (m.drop k).getD i 0 = m.getD (k + i) 0 := by
  simp [List.getD_eq_getElem?_getD]

/-- One more block at the end of a chain (R204). -/
theorem chain_succ (n : Nat) (H : Vector Word 5) (m : List Byte) :
    chain (n + 1) H m = compress (chain n H m) (hashBlockOf (m.drop (64 * n))) := by
  induction n generalizing H m with
  | zero => simp [chain]
  | succ n ih =>
    rw [chain, ih, List.drop_drop, show 64 + 64 * n = 64 * (n + 1) by omega]
    rfl

/-- A chain depends on the bytes of its blocks only. -/
theorem chain_congr (n : Nat) (H : Vector Word 5) (x y : List Byte) (h : ∀ i < 64 * n, x.getD i 0 = y.getD i 0) :
    chain n H x = chain n H y := by
  induction n with
  | zero => rfl
  | succ n ih =>
    rw [chain_succ, chain_succ, ih fun i hi => h i (by omega)]
    refine congrArg _ (hashBlockOf_eq _ _ fun i hi => ?_)
    rw [hashBlockOf_getElem _ _ hi, getD_drop, getD_drop]
    exact h _ (by omega)

theorem getD_append_left (x y : List Byte) (i : Nat) (h : i < x.length) : (x ++ y).getD i 0 = x.getD i 0 := by
  simp [List.getD_eq_getElem?_getD, List.getElem?_append_left h]

/-- Absorbing one byte keeps the registers those of the message so far (R42, R203). -/
theorem absorbByte_buffered (msg : List Byte) (b : Byte) (r : HashBuffer) (h : Buffered msg r) :
    Buffered (msg ++ [b]) (absorbByte r b) := by
  obtain ⟨H, HBUF, HBUFN⟩ := r
  obtain ⟨hn, hH, hb⟩ := h
  simp only at hn hH hb
  have hdm := Nat.div_add_mod msg.length 64
  have hlt := HBUFN.isLt
  have hbuf (i : Nat) (hi : i ≤ msg.length % 64) (hi64 : i < 64) :
      (HBUF.set HBUFN b)[i] = (msg ++ [b]).getD (64 * (msg.length / 64) + i) 0 := by
    rw [Vector.getElem_set]
    split
    · rw [show 64 * (msg.length / 64) + i = msg.length by omega]
      simp [List.getD_eq_getElem?_getD]
    · rw [getD_append_left _ _ _ (by omega)]
      exact hb ⟨i, hi64⟩ (by change i < _; omega)
  have hchain : chain (msg.length / 64) hashInit (msg ++ [b]) = H := by
    rw [hH]
    exact chain_congr _ _ _ _ fun i hi => getD_append_left _ _ _ (by omega)
  by_cases h63 : HBUFN = 63
  · have h63' : msg.length % 64 = 63 := by rw [← hn, h63]; rfl
    have e1 : (msg ++ [b]).length / 64 = msg.length / 64 + 1 := by simp; omega
    have e2 : (msg ++ [b]).length % 64 = 0 := by simp; omega
    have e3 : absorbByte ⟨H, HBUF, HBUFN⟩ b = ⟨compress H (HBUF.set HBUFN b), HBUF.set HBUFN b, 0⟩ := if_pos h63
    rw [e3]
    refine ⟨by rw [e2]; rfl, ?_, fun i hi => by omega⟩
    rw [e1, chain_succ, hchain]
    refine congrArg (compress H) (hashBlockOf_eq (HBUF.set HBUFN b) _ fun i hi => ?_)
    rw [getD_drop]
    exact hbuf i (by omega) hi
  · have h63' : msg.length % 64 ≠ 63 := fun e => h63 (Fin.ext (hn.trans e))
    have e1 : (msg ++ [b]).length / 64 = msg.length / 64 := by simp; omega
    have e2 : (msg ++ [b]).length % 64 = msg.length % 64 + 1 := by simp; omega
    have e3 : absorbByte ⟨H, HBUF, HBUFN⟩ b = ⟨H, HBUF.set HBUFN b, HBUFN + 1⟩ := if_neg h63
    rw [e3]
    refine ⟨?_, by rw [e1]; exact hchain.symm, fun i hi => ?_⟩
    · rw [e2, Fin.val_add, hn]
      exact Nat.mod_eq_of_lt (by simp; omega)
    · rw [e1]
      exact hbuf i.val (by omega) i.isLt

/-- Absorbing a piece keeps the registers those of the message so far (R42, R203). -/
theorem absorbAll_buffered (bs : List Byte) (msg : List Byte) (r : HashBuffer) (h : Buffered msg r) :
    Buffered (msg ++ bs) (absorbAll bs r) := by
  induction bs generalizing msg r with
  | nil => simpa using h
  | cons b bs ih =>
    have := ih (msg ++ [b]) (absorbByte r b) (absorbByte_buffered msg b r h)
    simpa using this

end Sys2Proof.Machine
end

