-- ==== Sys2Proof/Laws/PerInstr.lean ====
section
/-! SUPPORT. Statements made per instruction. Family `Encoding`: the command word of a well-formed command names its own row of
the opcode map and carries its payload length. -/

namespace Sys2Proof.Laws

/-- The command word names the command's row (R87) and its LEN field is the payload length (R82). -/
def Encoding.Statement (i : Instr) : Prop :=
  wellFormed i = true →
    decodeCommand (commandWord i) i.payload = some i ∧ lenField (commandWord i) = i.payload.length

theorem Encoding.lenField_commandWord (i : Instr) (h : wellFormed i = true) :
    lenField (commandWord i) = i.payload.length := by
  rw [commandWord, lenField_or _ _ (matchValue_masked i), length_toNat _ ((wellFormed_iff i).mp h)]

theorem Encoding.masked_commandWord (i : Instr) : commandWord i &&& cwMask = i.matchValue := by
  rw [commandWord, masked_or_len, matchValue_masked]

theorem Encoding.keyinit (inp : List Byte) : Encoding.Statement (.keyinit inp) := fun h =>
  ⟨by rw [decodeCommand, Encoding.masked_commandWord]; rfl, Encoding.lenField_commandWord _ h⟩

theorem Encoding.encblk (inp : List Byte) : Encoding.Statement (.encblk inp) := fun h =>
  ⟨by rw [decodeCommand, Encoding.masked_commandWord]; rfl, Encoding.lenField_commandWord _ h⟩

theorem Encoding.decblk (inp : List Byte) : Encoding.Statement (.decblk inp) := fun h =>
  ⟨by rw [decodeCommand, Encoding.masked_commandWord]; rfl, Encoding.lenField_commandWord _ h⟩

theorem Encoding.nsinit (inp : List Byte) : Encoding.Statement (.nsinit inp) := fun h =>
  ⟨by rw [decodeCommand, Encoding.masked_commandWord]; rfl, Encoding.lenField_commandWord _ h⟩

theorem Encoding.scramble (inp : List Byte) : Encoding.Statement (.scramble inp) := fun h =>
  ⟨by rw [decodeCommand, Encoding.masked_commandWord]; rfl, Encoding.lenField_commandWord _ h⟩

theorem Encoding.unscramble (inp : List Byte) : Encoding.Statement (.unscramble inp) := fun h =>
  ⟨by rw [decodeCommand, Encoding.masked_commandWord]; rfl, Encoding.lenField_commandWord _ h⟩

theorem Encoding.ainitP (inp : List Byte) : Encoding.Statement (.ainitP inp) := fun h =>
  ⟨by rw [decodeCommand, Encoding.masked_commandWord]; rfl, Encoding.lenField_commandWord _ h⟩

theorem Encoding.ainitH (inp : List Byte) : Encoding.Statement (.ainitH inp) := fun h =>
  ⟨by rw [decodeCommand, Encoding.masked_commandWord]; rfl, Encoding.lenField_commandWord _ h⟩

theorem Encoding.ainitH2 (inp : List Byte) : Encoding.Statement (.ainitH2 inp) := fun h =>
  ⟨by rw [decodeCommand, Encoding.masked_commandWord]; rfl, Encoding.lenField_commandWord _ h⟩

theorem Encoding.xform (inp : List Byte) : Encoding.Statement (.xform inp) := fun h =>
  ⟨by rw [decodeCommand, Encoding.masked_commandWord]; rfl, Encoding.lenField_commandWord _ h⟩

theorem Encoding.hinit (inp : List Byte) : Encoding.Statement (.hinit inp) := fun h =>
  ⟨by rw [decodeCommand, Encoding.masked_commandWord]; rfl, Encoding.lenField_commandWord _ h⟩

theorem Encoding.hupdate (inp : List Byte) : Encoding.Statement (.hupdate inp) := fun h =>
  ⟨by rw [decodeCommand, Encoding.masked_commandWord]; rfl, Encoding.lenField_commandWord _ h⟩

theorem Encoding.hfinal (inp : List Byte) : Encoding.Statement (.hfinal inp) := fun h =>
  ⟨by rw [decodeCommand, Encoding.masked_commandWord]; rfl, Encoding.lenField_commandWord _ h⟩

end Sys2Proof.Laws
end

