-- ==== Sys2Proof/Laws/Pipeline.lean ====
section
/-! SUPPORT. What the host's operations of 45_pipeline can do. -/

namespace Sys2Proof.Machine

/-! ### Sequences -/

@[simp] theorem Reply.ok_andThen {α β : Type} (a : α) (s : State) (f : α → State → Reply β) :
    (Reply.ok a s).andThen f = f a s := rfl

@[simp] theorem Reply.aborted_andThen {α β : Type} (st : Byte) (s : State) (f : α → State → Reply β) :
    (Reply.aborted st s : Reply α).andThen f = .aborted st s := rfl

/-- Everything `ask` can do with a command's answer (R85, R232): the payload where the status is OK, else the abort with the status. -/
theorem ask_of_answer {i : Instr} {s t : State} {st : Status} {out : List Byte} (h : exec i s = .next t)
    (hr : t.respOut = s.respOut ++ responseFrame st out) : s.ask i = if st = .ok then .ok out t else .aborted st.code t := by
  have hd : t.respOut.drop s.respOut.length = responseFrame st out := by rw [hr, List.drop_left]
  have hd' : t.respOut.drop (s.respOut.length + 4) = out := by rw [← List.drop_drop, hd]; rfl
  simp only [State.ask, h, answerStatus, hd, hd', responseFrame_status]
  by_cases hs : st = .ok
  · rw [if_pos hs, if_pos (congrArg Status.code hs)]
  · rw [if_neg hs, if_neg fun h => hs (code_injective h)]

/-- A command that ends with OK gives the host its payload. -/
theorem ask_of_ok {i : Instr} {s t : State} {out : List Byte} (h : exec i s = .next t)
    (hr : t.respOut = s.respOut ++ responseFrame .ok out) : s.ask i = .ok out t := ask_of_answer h hr

/-- A command that faults aborts with its status code. -/
theorem ask_of_fault {i : Instr} {s t : State} {f : Status} (h : exec i s = .next t) (hf : f ≠ .ok)
    (hr : t.respOut = s.respOut ++ responseFrame f []) : s.ask i = .aborted f.code t :=
  (ask_of_answer h hr).trans (if_neg hf)

@[simp] theorem askEach_nil (f : List Byte → Instr) (s : State) : s.askEach f [] = .ok [] s := rfl

/-- The first command of several, then the others. -/
theorem askEach_cons {f : List Byte → Instr} {x y ys : List Byte} {xs : List (List Byte)} {s t u : State}
    (h : s.ask (f x) = .ok y t) (hs : t.askEach f xs = .ok ys u) : s.askEach f (x :: xs) = .ok (y ++ ys) u := by
  simp [State.askEach, h, hs]

@[simp] theorem decryptChunks_nil (s : State) : decryptChunks [] s = .ok [] s := rfl

/-- The first segment of several, then the others (R233). -/
theorem decryptChunks_cons {x y xs out : List Byte} {ys : List (List Byte)} {s t u v : State}
    (hx : s.ask (.xform y) = .ok x t) (hh : t.ask (.hupdate x) = .ok out u) (hs : decryptChunks ys u = .ok xs v) :
    decryptChunks (y :: ys) s = .ok (x ++ xs) v := by
  simp [decryptChunks, hx, hh, hs]

/-! ### Cuts -/

/-- Every chunk is at most a chunk long (R234). -/
theorem length_of_mem_chunks {X x : List Byte} (h : x ∈ chunks X) : x.length ≤ chunkSize := by
  obtain ⟨j, -, rfl⟩ := List.mem_map.mp h
  simp

/-- The first `n` chunks of a stream are its first bytes. -/
theorem flatten_first_chunks (X : List Byte) (n : Nat) :
    ((List.range n).map fun j => (X.drop (chunkSize * j)).take chunkSize).flatten = X.take (chunkSize * n) := by
  induction n with
  | zero => simp
  | succ n ih =>
    rw [List.range_succ, List.map_append, List.flatten_append, ih, Nat.mul_succ, List.take_add]
    simp

/-- The chunks of a stream are the stream (R232). -/
@[simp] theorem flatten_chunks (X : List Byte) : (chunks X).flatten = X := by
  rw [chunks, flatten_first_chunks]
  apply List.take_of_length_le
  simp only [chunkSize]
  omega

/-- However the reads fall, the segments are the stream (R235). -/
@[simp] theorem flatten_cuts (reads : List Nat) (X : List Byte) : (cuts reads X).flatten = X := by
  induction reads generalizing X with
  | nil => exact flatten_chunks X
  | cons n reads ih => rw [cuts, List.flatten_cons, ih, List.take_append_drop]

/-- Every segment is at most a chunk long (R235). -/
theorem length_of_mem_cuts {reads : List Nat} {X x : List Byte} (h : x ∈ cuts reads X) : x.length ≤ chunkSize := by
  induction reads generalizing X with
  | nil => exact length_of_mem_chunks h
  | cons n reads ih =>
    rcases List.mem_cons.mp h with rfl | h
    · rw [List.length_take]; omega
    · exact ih h

end Sys2Proof.Machine
end

