-- ==== Sys2Proof/Tests/Slice0.lean ====
section
/-! SUPPORT. The model's own tests. Expected values are the spec's: 95_test_vectors, and the rules named beside a test. -/

namespace Sys2Proof.Tests

open Sys2Proof.Machine

set_option Elab.async false

/-! ### Helpers -/

/-- The state after a command; the state before it where it stopped. -/
def after (i : Instr) (s : State) : State :=
  match exec i s with
  | .next t => t
  | .fault _ => s
  | .refused _ => s

/-- The bytes a command answers. -/
def answer (i : Instr) (s : State) : List Byte := (after i { s with respOut := [] }).respOut

/-- The state after one step. -/
def afterStep (s : State) : State :=
  match step s with
  | .next t => t
  | .fault _ => s
  | .refused _ => s

def k0 : List Byte := List.replicate 16 0
def k2 : List Byte := [0x01, 0x23, 0x45, 0x67, 0x89, 0xab, 0xcd, 0xef, 0x01, 0x12, 0x23, 0x34, 0x45, 0x56, 0x67, 0x78]

/-- "BIFROST" in ASCII (R169). -/
def bifrost : List Byte := [0x42, 0x49, 0x46, 0x52, 0x4f, 0x53, 0x54]

/-- A schedule in force. -/
def keyed (key : List Byte) : State := after (.keyinit key) State.reset

/-- A table in force. -/
def tabled (key : List Byte) : State := after (.nsinit key) State.reset

/-- A digest in progress. -/
def hashing : State := after (.hinit []) State.reset

/-- An open session. -/
def session : State := after (.ainitP k0) State.reset

/-! ### Encoding: the command words of 95 section 2.1, written out -/

theorem test_decode_keyinit : decode ([0x10, 0x00, 0x00, 0x01] ++ k0) = .command (.keyinit k0) [] := by decide +kernel
theorem test_decode_encblk : decode ([0x10, 0x00, 0x00, 0x02] ++ k2) = .command (.encblk k2) [] := by decide +kernel
theorem test_decode_decblk : decode ([0x10, 0x00, 0x00, 0x03] ++ k2) = .command (.decblk k2) [] := by decide +kernel
theorem test_decode_nsinit : decode ([0x07, 0x00, 0x00, 0x10] ++ bifrost) = .command (.nsinit bifrost) [] := by decide +kernel
theorem test_decode_scramble : decode [0x04, 0x00, 0x00, 0x11, 1, 2, 3, 4] = .command (.scramble [1, 2, 3, 4]) [] := by
  decide +kernel
theorem test_decode_unscramble : decode [0x04, 0x00, 0x00, 0x12, 1, 2, 3, 4] = .command (.unscramble [1, 2, 3, 4]) [] := by
  decide +kernel
theorem test_decode_ainitP : decode ([0x10, 0x00, 0x00, 0x20] ++ k2) = .command (.ainitP k2) [] := by decide +kernel
theorem test_decode_ainitH : decode ([0x10, 0x00, 0x04, 0x20] ++ k2) = .command (.ainitH k2) [] := by decide +kernel
theorem test_decode_ainitH2 : decode ([0x10, 0x00, 0x08, 0x20] ++ k2) = .command (.ainitH2 k2) [] := by decide +kernel
theorem test_decode_xform : decodeTableWord 32 0x2100002b = some (.xform (List.replicate 43 0)) := by decide +kernel
theorem test_decode_hinit : decode [0x00, 0x00, 0x00, 0x30, 0x7f] = .command (.hinit []) [0x7f] := by decide +kernel
theorem test_decode_hupdate : decodeTableWord 32 0x3100002b = some (.hupdate (List.replicate 43 0)) := by decide +kernel
theorem test_decode_hfinal : decode [0x00, 0x00, 0x00, 0x32] = .command (.hfinal []) [] := by decide +kernel

/-- 95 section 2.1: XFORM of 65536 bytes and HUPDATE of 70000 bytes, by the two parts of their command words. -/
theorem test_long_lengths :
    lenField 0x21010000 = 65536 ∧ (decodeCommand 0x21010000 []).isSome ∧
      lenField 0x31011170 = 70000 ∧ decodeCommand 0x31011170 [] = some (.hupdate []) := by decide +kernel

/-- The illegal command words of 95 section 2.1. -/
theorem test_illegal_words :
    [0x00000000, 0x7f000003, 0x02040010, 0x200c0010, 0x200c000f, 0x01020010, 0x01100010, 0x2103ffff, 0x33000000].all
      (fun cw => (decodeCommand cw []).isNone) = true := by decide +kernel

theorem test_encode_ainitH2 : encode (.ainitH2 k0) = [0x10, 0x00, 0x08, 0x20] ++ k0 := by decide +kernel

/-- Every check of WellFormed refuses an ill-formed term: a payload longer than the LEN field can count. -/
theorem test_wellFormed_refuses_long_payload : wellFormed (.xform (List.replicate 131072 0)) = false := by
  rw [wellFormed, Instr.payload, List.length_replicate]
  rfl

/-- The longest payload is well formed. -/
theorem test_wellFormed_accepts_longest_payload : wellFormed (.xform (List.replicate 131071 0)) = true := by
  rw [wellFormed, Instr.payload, List.length_replicate]
  rfl

/-! ### Steps -/

/-- A table word is the first instruction after reset: HINIT starts a digest. -/
theorem test_fetch_hinit : (afterStep (State.reset.withFetchWord 32 0x30000000)).HSTATE = .active := by decide +kernel

/-- 95 section 2.8: `0x200c000f` from reset is IllegalCommand, and the fifteen payload bytes are consumed. -/
theorem test_step_illegal :
    (afterStep (State.reset.withFetchWord 32 0x200c000f)).respOut = [0x00, 0x00, 0x00, 0x04] ∧
      (afterStep (State.reset.withFetchWord 32 0x200c000f)).cmdIn = [] := by decide +kernel

/-- R80: half a frame is not taken. -/
theorem test_step_waits : (afterStep (State.reset.hostSends [0x01, 0x00, 0x00, 0x21])).cmdIn = [0x01, 0x00, 0x00, 0x21] := by
  decide +kernel

/-- R280: the reset input clears a flag. -/
theorem test_step_reset : (afterStep hashing.hostAssertsReset).HSTATE = .idle := by decide +kernel

/-! ### BlockCipher -/

/-- 95 section 2.2: the schedule of K0. -/
theorem test_keyinit_schedule :
    (keyed k0).S.toList.take 4 = [0x2a66311c, 0x9b17852d, 0x8108b207, 0x39d14185] ∧
      (keyed k0).S.toList.drop 42 = [0x05b4016a, 0x4b38ac83] := by decide +kernel

/-- 95 section 2.2: a wrong key length is ConfigurationError. -/
theorem test_keyinit_short : answer (.keyinit (List.replicate 15 0)) State.reset = [0x00, 0x00, 0x00, 0x01] := by
  decide +kernel

/-- 95 section 2.3, key K2. -/
theorem test_encblk_k2 :
    answer (.encblk [0x02, 0x13, 0x24, 0x35, 0x46, 0x57, 0x68, 0x79, 0x8a, 0x9b, 0xac, 0xbd, 0xce, 0xdf, 0xe0, 0xf1]) (keyed k2) =
      [0x10, 0x00, 0x00, 0x00, 0x52, 0x4e, 0x19, 0x2f, 0x47, 0x15, 0xc6, 0x23, 0x1f, 0x51, 0xf6, 0x36, 0x7e, 0xa4, 0x3f, 0x18] := by
  decide +kernel

/-- 95 section 2.8: the length is tested before the state. -/
theorem test_encblk_short : answer (.encblk (List.replicate 15 0)) State.reset = [0x00, 0x00, 0x00, 0x02] := by
  decide +kernel

/-- 95 section 2.3, key K0, the zero block. -/
theorem test_decblk_k0 :
    answer (.decblk k0) (keyed k0) =
      [0x10, 0x00, 0x00, 0x00, 0xa1, 0xf2, 0x78, 0x9e, 0xfc, 0x34, 0x4f, 0xc4, 0x26, 0xbc, 0xc5, 0xee, 0x74, 0x62, 0xff, 0x59] := by
  decide +kernel

theorem test_decblk_no_key : answer (.decblk k0) State.reset = [0x00, 0x00, 0x00, 0x03] := by decide +kernel

/-! ### NibbleScrambler -/

/-- R169: the BIFROST table. -/
theorem test_nsinit_bifrost :
    (tabled bifrost).C2V.toList = [2, 4, 9, 6, 5, 0xf, 3, 0, 1, 7, 8, 0xa, 0xb, 0xc, 0xd, 0xe] ∧
      (tabled bifrost).V2C.toList = [7, 8, 0, 6, 1, 4, 3, 9, 10, 2, 11, 12, 13, 14, 15, 5] := by decide +kernel

/-- 90 C7: NSINIT ends a session of either variant. -/
theorem test_nsinit_ends_session : session.AVALID = true ∧ (after (.nsinit []) session).AVALID = false := by decide +kernel

/-- R169. -/
theorem test_scramble_bifrost :
    answer (.scramble [0xde, 0xad, 0xbe, 0xef]) (tabled bifrost) = [0x04, 0x00, 0x00, 0x00, 0xea, 0xec, 0xad, 0x6c] := by
  decide +kernel

/-- 95 section 2.5: three bytes, so the middle byte takes one nibble from rows and one from columns. -/
theorem test_scramble_odd : answer (.scramble [0x12, 0x34, 0x56]) (tabled bifrost) = [0x03, 0x00, 0x00, 0x00, 0x15, 0x52, 0x76] := by
  decide +kernel

/-- 95 section 2.5: what can be tested of UNSCRAMBLE is its length. -/
theorem test_unscramble_length : (answer (.unscramble [0xde, 0xad, 0xbe, 0xef]) (tabled bifrost)).length = 8 := by
  decide +kernel

theorem test_unscramble_empty : answer (.unscramble []) (tabled bifrost) = [0x00, 0x00, 0x00, 0x00] := by decide +kernel

/-! ### StreamCipherAdapter -/

/-- R190: the first keystream block of K0. -/
theorem test_ainitP_keystream :
    session.KS.toList =
      [0xe3, 0x05, 0xdc, 0x67, 0xe6, 0xe9, 0x51, 0xbe, 0x77, 0x5b, 0xc5, 0x78, 0x5c, 0x30, 0x71, 0xa9] := by decide +kernel

/-- 95 section 2.6: a wrong key length leaves an open session open. -/
theorem test_ainitP_short : after (.ainitP [0x00]) session = { session with respOut := session.respOut ++ [0, 0, 0, 1] } := by
  decide +kernel

/-- 95 section 2.6: the table of K2. -/
theorem test_ainitH_table :
    (after (.ainitH k2) State.reset).C2V.toList = [1, 0, 3, 2, 5, 4, 7, 6, 9, 8, 0xb, 0xa, 0xd, 0xc, 0xf, 0xe] := by decide +kernel

/-- R175: the third selector leaves the second's state. -/
theorem test_ainitH2_alias : after (.ainitH2 k2) session = after (.ainitH k2) session := by decide +kernel

/-- R190: XFORM "The q". -/
theorem test_xform_primitive :
    answer (.xform [0x54, 0x68, 0x65, 0x20, 0x71]) session = [0x05, 0x00, 0x00, 0x00, 0xb7, 0x6d, 0xb9, 0x47, 0x97] := by
  decide +kernel

/-- R191: XFORM "The quic" in a hybrid session. -/
theorem test_xform_hybrid :
    answer (.xform [0x54, 0x68, 0x65, 0x20, 0x71, 0x75, 0x69, 0x63]) (after (.ainitH k0) State.reset) =
      [0x08, 0x00, 0x00, 0x00, 0x95, 0x9d, 0xbb, 0x6b, 0xc0, 0x3e, 0xc0, 0x3d] := by decide +kernel

/-! ### IntegrityHasher -/

theorem test_hinit_value : hashing.H.toList = [0x67452301, 0xEFCDAB89, 0x98BADCFE, 0x10325476, 0xC3D2E1F0] := by decide +kernel

theorem test_hinit_long : answer (.hinit [0x00]) State.reset = [0x00, 0x00, 0x00, 0x02] := by decide +kernel

/-- 95 section 2.7: after "abc". -/
theorem test_hupdate_abc :
    (after (.hupdate [0x61, 0x62, 0x63]) hashing).HBUFN = 3 ∧ (after (.hupdate [0x61, 0x62, 0x63]) hashing).HLEN = 3 ∧
      (after (.hupdate [0x61, 0x62, 0x63]) hashing).H = hashing.H := by decide +kernel

/-- 95 section 2.7: at the message limit one more byte is LengthError. -/
theorem test_hupdate_limit :
    answer (.hupdate [0x00]) { hashing with HLEN := 0x1fffffffffffffff } = [0x00, 0x00, 0x00, 0x02] := by decide +kernel

/-- 95 section 2.7: the digest of the empty message. -/
theorem test_hfinal_empty :
    answer (.hfinal []) hashing =
      [0x14, 0x00, 0x00, 0x00, 0xda, 0x39, 0xa3, 0xee, 0x5e, 0x6b, 0x4b, 0x0d, 0x32, 0x55, 0xbf, 0xef, 0x95, 0x60, 0x18, 0x90,
       0xaf, 0xd8, 0x07, 0x09] := by decide +kernel

/-- 95 section 2.7: 56 bytes, whose padding needs a second block. -/
theorem test_hfinal_two_blocks :
    answer (.hfinal []) (after (.hupdate (List.replicate 56 0x61)) hashing) =
      [0x14, 0x00, 0x00, 0x00, 0xc2, 0xdb, 0x33, 0x0f, 0x60, 0x83, 0x85, 0x4c, 0x99, 0xd4, 0xb5, 0xbf, 0xb6, 0xe8, 0xf2, 0x9f,
       0x20, 0x1b, 0xe6, 0x99] := by decide +kernel

/-! ### The host's sequences -/

/-- What the host gathered; nothing where the sequence was aborted. -/
def gathered {α : Type} : Reply α → Option α
  | .ok value _ => some value
  | .aborted _ _ => none
  | .refused _ => none

/-- The status a sequence was aborted with. -/
def abortedWith {α : Type} : Reply α → Option Byte
  | .ok _ _ => none
  | .aborted status _ => some status
  | .refused _ => none

/-- "The quic" (R191). -/
def quic : List Byte := [0x54, 0x68, 0x65, 0x20, 0x71, 0x75, 0x69, 0x63]

/-- 45 R234, R235, R237: a stream shorter than a chunk is one chunk, an empty one none; a short read makes a segment of its own. -/
theorem test_cuts : cuts [] [] = [] ∧ cuts [] [1, 2, 3] = [[1, 2, 3]] ∧ cuts [2] [1, 2, 3] = [[1, 2], [3]] := by decide +kernel

/-- R191: the ciphertext of a host whose first read returns five bytes of eight. -/
theorem test_encrypt_short_read :
    (gathered (encryptSequence .h k0 [quic] [5] State.reset)).map Prod.snd =
      some [0x95, 0x9d, 0xbe, 0x34, 0xcb, 0x91, 0xd0, 0x3d] := by decide +kernel

/-- 45 R235: the standard decrypt sequence does not recover it. -/
theorem test_decrypt_other_cuts :
    ((gathered (decryptSequence .h k0 [0x95, 0x9d, 0xbe, 0x34, 0xcb, 0x91, 0xd0, 0x3d] [] State.reset)).map
      fun r => (r.2 == quic, hashValid (hexText (sha1 quic)) r.1)) = some (false, false) := by decide +kernel

/-- 45 R232: a key of 15 bytes aborts the encrypt sequence with ConfigurationError, status 0x01. -/
theorem test_encrypt_wrong_key :
    abortedWith (encryptSequence .p (List.replicate 15 0) [quic] [] State.reset) = some 0x01 := by decide +kernel

/-- 44 R210. -/
theorem test_hexText : hexText [0xda, 0x39] = ['d', 'a', '3', '9'] := by decide +kernel

/-! ### Witnesses: for each obligation with hypotheses, a state and operands that meet all of them -/

/-- A schedule, a table and a hybrid session in force, and a digest in progress. -/
def full : State := after (.hinit []) (after (.ainitH k0) State.reset)

theorem full_inv : Inv full := by
  refine ⟨fun _ => ⟨k0, rfl, rfl⟩, fun _ => ?_, fun _ => ⟨rfl, ⟨0, rfl⟩, rfl, fun _ => rfl⟩, fun _ => ⟨?_, [], ?_⟩⟩
  · unfold IsTable; decide +kernel
  · decide +kernel
  · unfold Absorbed Buffered; decide +kernel

theorem witness_EncodeThenDecode : wellFormed (.ainitH2 k2) = true := by decide +kernel

theorem witness_DecodeThenEncode : decode [0x01, 0x00, 0x00, 0x21, 0xaa, 0xbb] = .command (.xform [0xaa]) [0xbb] := by decide +kernel

/-- The third selector is legal, the fourth value of SEL is not. -/
theorem witness_IllegalCommandsAreAnswered :
    (0x20080000#32 &&& 0xFFFE0000#32) = 0x20080000#32 ∧
    (∀ m ∈ opcodeMap, (0x200c0001#32 &&& 0xFFFE0000#32) ≠ m.1) ∧
    (State.reset.hostSends [0x01, 0x00, 0x0c, 0x20, 0xaa, 0xbb]).RESET = false ∧
    [0xaa#8].length = ((0x20#8 ++ 0x0c#8 ++ 0x00#8 ++ 0x01#8 : Word).extractLsb' 0 17).toNat := by
  refine ⟨by decide +kernel, ?_, rfl, by decide +kernel⟩
  simp only [opcodeMap, List.forall_mem_cons]
  decide +kernel

theorem witness_StepRunsDecodedInstruction :
    (State.reset.hostSends [0x00, 0x00, 0x00, 0x30]).RESET = false ∧ wellFormed (.hinit []) = true ∧
    decode (State.reset.hostSends [0x00, 0x00, 0x00, 0x30]).cmdIn = .command (.hinit []) [] := by decide +kernel

/-- Three bytes are no command word; a command word without its last payload byte is no frame. -/
theorem witness_WaitsForWholeFrame :
    State.reset.RESET = false ∧ [0x01#8, 0x00#8, 0x00#8].length < 4 ∧
    [0xaa#8].length < ((0x21#8 ++ 0x00#8 ++ 0x00#8 ++ 0x02#8 : Word).extractLsb' 0 17).toNat := by decide +kernel

theorem witness_ResponseFrameBytes : (List.replicate 131071 (0 : Byte)).length ≤ 131071 := by
  rw [List.length_replicate]

theorem witness_FaultsWriteNothing :
    State.reset.RESET = false ∧ takeFrame [0x00, 0x00, 0x00, 0x32] = some (0x32000000, [], []) := by decide +kernel

/-- Fifteen bytes fault, sixteen do not. -/
theorem witness_ConfigurationErrorIsWrongKeyLength :
    (∃ t, exec (.keyinit (List.replicate 15 0)) State.reset = .next t ∧ t.respOut = [] ++ responseFrame .configurationError []) ∧
    (∃ t, exec (.ainitP k0) State.reset = .next t ∧ t.respOut = [] ++ responseFrame .ok []) :=
  ⟨⟨_, rfl, by decide +kernel⟩, ⟨_, rfl, by decide +kernel⟩⟩

/-- One byte above MAXSEG, a block of the wrong length, and a message one byte above HMAXLEN fault; a message at HMAXLEN does not. -/
theorem witness_LengthErrorIsWrongLength :
    (∃ t, exec (.xform [1, 2, 3]) { session with params := { session.params with MAXSEG := 2 } } = .next t ∧ t.KS = session.KS) ∧
    (∃ t, exec (.encblk (List.replicate 17 0)) State.reset = .next t) ∧
    (∃ t, exec (.hupdate [1]) { hashing with HLEN := 0x1fffffffffffffff } = .next t ∧ t.HLEN = 0x1fffffffffffffff) ∧
    (∃ t, exec (.hupdate [1]) { hashing with HLEN := 0x1ffffffffffffffe } = .next t ∧ t.HLEN = 0x1fffffffffffffff) :=
  ⟨⟨_, rfl, rfl⟩, ⟨_, rfl⟩, ⟨_, rfl, rfl⟩, ⟨_, rfl, by decide +kernel⟩⟩

theorem witness_NotInitialisedIsMissingState :
    (∃ t, exec (.encblk k0) State.reset = .next t ∧ t.respOut = [0x00, 0x00, 0x00, 0x03]) ∧
    (∃ t, exec (.unscramble [1]) State.reset = .next t ∧ t.respOut = [0x00, 0x00, 0x00, 0x03]) ∧
    (∃ t, exec (.xform [1]) State.reset = .next t ∧ t.respOut = [0x00, 0x00, 0x00, 0x03]) ∧
    (∃ t, exec (.hfinal []) State.reset = .next t ∧ t.respOut = [0x00, 0x00, 0x00, 0x03]) :=
  ⟨⟨_, rfl, by decide +kernel⟩, ⟨_, rfl, by decide +kernel⟩, ⟨_, rfl, by decide +kernel⟩, ⟨_, rfl, by decide +kernel⟩⟩

theorem witness_HupdateRefusesOverlongMessage :
    [0x00#8].length ≤ hashing.params.MAXSEG ∧ hashing.HSTATE = .active ∧
    2 ^ 61 - 1 < (0x1fffffffffffffff : BitVec 64).toNat + [0x00#8].length := by decide +kernel

/-- The key of every statement about a 16-byte key. -/
theorem witness_key_length : k2.length = 16 := by decide +kernel

theorem witness_KeyinitBuildsSchedule : k0.length = 16 := by decide +kernel
theorem witness_KeyScheduleStart : k0.length = 16 := by decide +kernel
theorem witness_AinitPrimitiveOpensSession : k2.length = 16 := by decide +kernel
theorem witness_AinitHybridOpensSession : k2.length = 16 := by decide +kernel

theorem witness_EncblkReturnsCiphertext : k2.length = 16 ∧ (keyed k0).KVALID = true := by decide +kernel
theorem witness_DecblkReturnsPlaintext : k2.length = 16 ∧ (keyed k0).KVALID = true := by decide +kernel

theorem witness_NsinitBuildsTable : bifrost.length ≤ State.reset.params.MAXSEG := by decide +kernel

/-- A key that shows every nibble. -/
theorem witness_KeyBytesPastAllNibblesIgnored :
    ∀ v : Nibble, ∃ b ∈ [0x10#8, 0x32#8, 0x54#8, 0x76#8, 0x98#8, 0xba#8, 0xdc#8, 0xfe#8],
      b.extractLsb' 0 4 = v ∨ b.extractLsb' 4 4 = v := by decide +kernel

theorem witness_ScrambleReturnsRegrouping :
    bifrost.length ≤ (tabled bifrost).params.MAXSEG ∧ (tabled bifrost).TVALID = true := by decide +kernel

theorem witness_ScrambleIsBijective :
    IsTable (tabled bifrost).C2V (tabled bifrost).V2C ∧ [0x12#8, 0x34#8].length = [0x56#8, 0x78#8].length := by
  unfold IsTable; decide +kernel

theorem witness_UnscrambleKeepsLength :
    (tabled bifrost).C2V = tableC2V bifrost ∧ bifrost.length ≤ (tabled bifrost).params.MAXSEG ∧ (tabled bifrost).TVALID = true := by
  decide +kernel

theorem witness_XformPrimitiveXorsKeystream :
    bifrost.length ≤ session.params.MAXSEG ∧ session.AVALID = true ∧ session.AVAR = false := by decide +kernel

theorem witness_XformHybridXorsScrambledKeystream :
    bifrost.length ≤ full.params.MAXSEG ∧ full.AVALID = true ∧ full.AVAR = true := by decide +kernel

theorem witness_XformIsSymmetric : AnswersOk (.xform [0x54, 0x68]) full ((answer (.xform [0x54, 0x68]) full).drop 4)
    (after (.xform [0x54, 0x68]) full) := ⟨rfl, by decide +kernel⟩

theorem witness_XformPrimitiveIgnoresCuts :
    session.AVAR = false ∧ [0x54#8].length + [0x68#8].length ≤ session.params.MAXSEG ∧
    AnswersOk (.xform [0x54]) session [0xb7] (after (.xform [0x54]) session) ∧
    AnswersOk (.xform [0x68]) (after (.xform [0x54]) session) [0x6d] (after (.xform [0x68]) (after (.xform [0x54]) session)) :=
  ⟨rfl, by decide +kernel, ⟨rfl, by decide +kernel⟩, ⟨rfl, by decide +kernel⟩⟩

/-- Two cuts, and the two hybrid selectors. -/
theorem witness_SessionRoundTrip :
    k0.length = 16 ∧ State.reset.params = (keyed k2).params ∧
    exec (.ainitH k0) State.reset = .next (after (.ainitH k0) State.reset) ∧
    exec (.ainitH2 k0) (keyed k2) = .next (after (.ainitH2 k0) (keyed k2)) ∧
    exec (.ainitP k0) State.reset = .next session ∧
    XformRun session [[0x54], [0x68]] [[0xb7], [0x6d]] (after (.xform [0x68]) (after (.xform [0x54]) session)) :=
  ⟨by decide +kernel, rfl, rfl, rfl, rfl, _, ⟨rfl, by decide +kernel⟩, _, ⟨rfl, by decide +kernel⟩, rfl⟩

theorem witness_RekeyingEndsSession :
    [0x00#8].length ≤ session.params.MAXSEG ∧ k2.length = 16 ∧ session.AVALID = true ∧
    exec (.keyinit k2) session = .next (after (.keyinit k2) session) ∧
    bifrost.length ≤ session.params.MAXSEG ∧ exec (.nsinit bifrost) session = .next (after (.nsinit bifrost) session) ∧
    (∀ i ∈ [Instr.hinit []], i.isAinit = false) ∧
    RunTo (after (.keyinit k2) session) [.hinit []] (after (.hinit []) (after (.keyinit k2) session)) ∧
    RunTo (after (.nsinit bifrost) session) [] (after (.nsinit bifrost) session) :=
  ⟨by decide +kernel, by decide +kernel, rfl, rfl, by decide +kernel, rfl, by simp [Instr.isAinit], ⟨_, rfl, rfl⟩, rfl⟩

/-- At the message limit exactly. -/
theorem witness_HupdateAbsorbsPiece :
    [0x00#8].length ≤ hashing.params.MAXSEG ∧ hashing.HSTATE = .active ∧
    (0x1ffffffffffffffe : BitVec 64).toNat + [0x00#8].length ≤ 2 ^ 61 - 1 := by decide +kernel

theorem witness_HupdateExtendsMessage :
    Absorbed [0x61, 0x62, 0x63] (after (.hupdate [0x61, 0x62, 0x63]) hashing) ∧
    (after (.hupdate [0x61, 0x62, 0x63]) hashing).HSTATE = .active ∧
    bifrost.length ≤ (after (.hupdate [0x61, 0x62, 0x63]) hashing).params.MAXSEG := by
  unfold Absorbed Buffered; decide +kernel

theorem witness_HashUpdatesConcatenate :
    hashing.HSTATE = .active ∧ k0.length + k2.length ≤ hashing.params.MAXSEG ∧
    hashing.HLEN.toNat + k0.length + k2.length ≤ 2 ^ 61 - 1 := by decide +kernel

theorem witness_HfinalEndsDigest : hashing.HSTATE = .active := by decide +kernel

theorem witness_HfinalReturnsDigest : hashing.HSTATE = .active ∧ Absorbed [] hashing := by
  unfold Absorbed Buffered; decide +kernel

/-- A message in two pieces with a cipher command between them. -/
theorem witness_DigestOfWholeMessage :
    (∀ i ∈ [Instr.hupdate [0x61], .keyinit k0, .hupdate [0x62, 0x63]], i.isHash = true →
      ∃ inp : List Byte, i = .hupdate inp ∧ inp.length ≤ State.reset.params.MAXSEG) ∧
    ([Instr.hupdate [0x61], .keyinit k0, .hupdate [0x62, 0x63]].flatMap Instr.messagePiece).length ≤ 2 ^ 61 - 1 ∧
    exec (.hinit []) State.reset = .next hashing ∧
    RunTo hashing [.hupdate [0x61], .keyinit k0, .hupdate [0x62, 0x63]]
      (after (.hupdate [0x62, 0x63]) (after (.keyinit k0) (after (.hupdate [0x61]) hashing))) := by
  refine ⟨?_, by decide +kernel, rfl, _, rfl, _, rfl, _, rfl, rfl⟩
  simp [Instr.isHash, State.reset, Params.default]

theorem witness_SetupCommandsIdempotent :
    exec (.ainitP k0) full = .next (after (.ainitP k0) full) ∧
    exec (.ainitP k0) (after (.ainitP k0) full) = .next (after (.ainitP k0) (after (.ainitP k0) full)) := ⟨rfl, rfl⟩

theorem witness_OnlyKeyCommandsWriteSchedule :
    exec (.keyinit k2) full = .next (after (.keyinit k2) full) ∧ (after (.keyinit k2) full).S ≠ full.S :=
  ⟨rfl, by decide +kernel⟩

theorem witness_OnlyTableCommandsWriteTable :
    exec (.nsinit bifrost) full = .next (after (.nsinit bifrost) full) ∧ (after (.nsinit bifrost) full).C2V ≠ full.C2V :=
  ⟨rfl, by decide +kernel⟩

theorem witness_OnlyAdapterCommandsWriteSession :
    exec (.xform [1]) full = .next (after (.xform [1]) full) ∧ (after (.xform [1]) full).CUR ≠ full.CUR ∧
    exec (.keyinit k2) full = .next (after (.keyinit k2) full) ∧ full.AVALID = true ∧ (after (.keyinit k2) full).AVALID = false ∧
    exec (.ainitH k0) State.reset = .next (after (.ainitH k0) State.reset) ∧ State.reset.AVALID = false ∧
    (after (.ainitH k0) State.reset).AVALID = true := ⟨rfl, by decide +kernel, rfl, rfl, rfl, rfl, rfl, rfl⟩

/-- Two pairs of states that agree on one unit's registers and differ elsewhere. -/
theorem witness_HashAndCipherIndependent :
    exec (.hupdate [1]) full = .next (after (.hupdate [1]) full) ∧ (Instr.hupdate [1]).isHash = true ∧
    SameHasher full { full with S := Vector.replicate 44 7 } ∧ full.S ≠ Vector.replicate 44 7 ∧
    exec (.hfinal []) full = .next (after (.hfinal []) full) ∧ full.opens = { full with S := Vector.replicate 44 7 }.opens ∧
    exec (.xform [1]) full = .next (after (.xform [1]) full) ∧ (Instr.xform [1]).isHash = false ∧
    SameCipher full { full with H := Vector.replicate 5 7 } ∧ full.H ≠ Vector.replicate 5 7 := by
  refine ⟨rfl, rfl, ?_, by decide +kernel, rfl, rfl, rfl, rfl, ?_, by decide +kernel⟩
  · exact ⟨rfl, rfl, rfl, rfl, rfl⟩
  · exact ⟨rfl, rfl, rfl, rfl, rfl, rfl, rfl, rfl, rfl, rfl⟩

theorem witness_ValidityFlagsSurviveCommands :
    full.RESET = false ∧ step full = .next full ∧ full.KVALID = true ∧ full.TVALID = true := ⟨rfl, rfl, rfl, rfl⟩

theorem witness_StepKeepsInvariants : Inv full ∧ step full = .next full := ⟨full_inv, rfl⟩

/-- Two states that differ in the unused part of HBUF. -/
theorem witness_UnspecifiedStorageIsUnobservable :
    Inv full ∧ Inv { full with HBUF := Vector.replicate 64 7 } ∧ SameVisible full { full with HBUF := Vector.replicate 64 7 } ∧
    full.HBUF ≠ Vector.replicate 64 7 ∧ step full = .next full := by
  refine ⟨full_inv, ⟨full_inv.1, full_inv.2.1, full_inv.2.2.1, fun _ => ⟨by decide +kernel, [], ?_⟩⟩, ?_, by decide +kernel, rfl⟩
  · unfold Absorbed Buffered; decide +kernel
  · refine ⟨rfl, rfl, rfl, rfl, rfl, rfl, rfl, rfl, fun _ => rfl, fun _ => ⟨rfl, rfl⟩, fun _ => ⟨rfl, rfl, rfl, rfl⟩, fun _ => ?_⟩
    unfold SameDigest; decide +kernel

theorem witness_ResetInputClearsFlags :
    (full.hostSends [0x00, 0x00, 0x00, 0x30]).hostAssertsReset.RESET = true := by decide +kernel

/-- The aliased selectors, and a piece of exactly MAXSEG bytes; a hybrid session with segments of the same lengths from different reads; a
primitive session; a key of the wrong length. -/
theorem witness_PipelineRoundTrip :
    k2.length = 16 ∧ Selector.h.hybrid = Selector.h2.hybrid ∧ State.reset.params = full.params ∧
    65536 ≤ State.reset.params.MAXSEG ∧
    (∀ x ∈ [List.replicate 65536 (1 : Byte)], x.length ≤ State.reset.params.MAXSEG) ∧
    [List.replicate 65536 (1 : Byte)].flatten.length ≤ 2 ^ 61 - 1 ∧
    (cuts [5, 3] [1, 2, 3, 4, 5, 6, 7, 8]).map List.length = (cuts [5, 7] [1, 2, 3, 4, 5, 6, 7, 8]).map List.length ∧
    Selector.p.hybrid = false ∧ (List.replicate 15 (0 : Byte)).length ≠ 16 := by
  refine ⟨rfl, rfl, rfl, by decide +kernel, fun x hx => ?_, ?_, by decide +kernel, rfl, by decide +kernel⟩
  · rw [List.mem_singleton.mp hx, List.length_replicate]
    decide +kernel
  · rw [List.flatten_singleton, List.length_replicate]
    decide +kernel

theorem witness_TamperingFlipsSameBits :
    k2.length = 16 ∧ 65536 ≤ State.reset.params.MAXSEG ∧ [0x4b#8, 0xb0#8].length = [0x4a#8, 0xb0#8].length ∧
    [0x4b#8, 0xb0#8].length ≤ 2 ^ 61 - 1 := by decide +kernel

end Sys2Proof.Tests
end

section
/-! PROOF. The rotations of 00_scope R11. -/

namespace Sys2Proof.Machine

theorem rotl32_eq_shifts (a : Word) (n : Nat) :
    rotl32 a n = (a <<< (n % 32)) ||| (a >>> (32 - n % 32)) := rfl

theorem rotr32_eq_shifts (a : Word) (n : Nat) :
    rotr32 a n = (a >>> (n % 32)) ||| (a <<< (32 - n % 32)) := rfl

/-- At amount 0 the right shift is by the whole width, so it leaves no bit. -/
theorem rotl32_of_mod_eq_zero (a : Word) (n : Nat) (h : n % 32 = 0) : rotl32 a n = a := by
  simp [rotl32_eq_shifts, h, BitVec.ushiftRight_eq_zero]

theorem rotr32_of_mod_eq_zero (a : Word) (n : Nat) (h : n % 32 = 0) : rotr32 a n = a := by
  simp [rotr32_eq_shifts, h]

/-- Settles O22: the formulas of R11 are the model's rotations, and `rotr32_rotl32` undoes the left one. -/
theorem rotationLaws : Obligations.RotationLaws := by
  unfold Obligations.RotationLaws
  intro a n
  refine ⟨?left, ?right, rotr32_rotl32 a n⟩
  case left =>
    split
    case isTrue h => exact rotl32_of_mod_eq_zero a n h
    case isFalse => exact rotl32_eq_shifts a n
  case right =>
    split
    case isTrue h => exact rotr32_of_mod_eq_zero a n h
    case isFalse => exact rotr32_eq_shifts a n

end Sys2Proof.Machine
end

section
/-! PROOF. What a command can do to the registers (10_state R30 to R42, R50): one case per kind of command. -/

namespace Sys2Proof.Machine

/-! The setup commands in terms of the updates of the state. -/

@[simp] theorem keySteps_eq (key : List Byte) (s : State) :
    keySteps key s = s.loadSchedule (keySchedule s.params.P32 s.params.Q32 key) := rfl

@[simp] theorem tableSteps_eq (key : List Byte) (s : State) :
    tableSteps key s = s.loadTable (tableC2V key) (tableV2C key) := rfl

@[simp] theorem primitiveSteps_eq (key : List Byte) (s : State) :
    primitiveSteps key s = startSession false (keySteps key s) := rfl

@[simp] theorem hybridSteps_eq (key : List Byte) (s : State) :
    hybridSteps key s = startSession true (tableSteps key (keySteps key s)) := rfl

@[simp] theorem startSession_eq (hybrid : Bool) (s : State) :
    startSession hybrid s =
      { s with
        AVAR := hybrid
        FB := encBlock s.S (ivOf s.S)
        KS := encBlock s.S (ivOf s.S)
        CUR := 0
        AVALID := true } := by
  simp only [startSession, State.refill, State.openSession]

/-- The digest registers after HINIT (R201). -/
def State.startDigest (s : State) : State := { s with H := hashInit, HLEN := 0, HBUFN := 0, HSTATE := .active }

/-- The digest registers after HUPDATE (R203): the piece absorbed and counted. -/
def State.extendDigest (inp : List Byte) (s : State) : State :=
  { s.absorb inp with HLEN := s.HLEN + BitVec.ofNat 64 inp.length }

theorem exec_hinit_startDigest (inp : List Byte) (s : State) :
    exec (.hinit inp) s = guarded (lenIsZero inp) .lengthError true (fun s => respond [] s.startDigest) s := rfl

theorem updateSteps_extendDigest (inp : List Byte) (s : State) :
    updateSteps inp s =
      if s.HLEN.toNat + inp.length > hmaxlen then raise .lengthError s else respond [] (s.extendDigest inp) := rfl

/-- What performing a command `i` in a state `s` can do: the state it leaves, and what its checks have established. The
cases are upper bounds: `answered` does not say which response a command gives. -/
inductive Effect (s : State) : Instr → State → Prop
  /-- A command that raises a fault or only reads writes nothing but its response (R259). -/
  | answered (i : Instr) (st : Status) (out : List Byte) : Effect s i (s.emit st out)
  | keyed {key : List Byte} (hlen : key.length = 16) : Effect s (.keyinit key) ((keySteps key s).emit .ok [])
  | tabled {key : List Byte} (hlen : key.length ≤ s.params.MAXSEG) :
      Effect s (.nsinit key) ((tableSteps key s).emit .ok [])
  | openedPrimitive {key : List Byte} (hlen : key.length = 16) :
      Effect s (.ainitP key) ((primitiveSteps key s).emit .ok [])
  | openedHybrid {i : Instr} {key : List Byte} (hi : i ∈ [.ainitH key, .ainitH2 key]) (hlen : key.length = 16) :
      Effect s i ((hybridSteps key s).emit .ok [])
  | transformed {inp : List Byte} (out : List Byte) (hopen : s.AVALID = true) :
      Effect s (.xform inp) ((s.nextKS inp.length).2.emit .ok out)
  | digestStarted (inp : List Byte) :
      Effect s (.hinit inp) (s.startDigest.emit .ok [])
  | digestExtended {inp : List Byte} (hactive : s.HSTATE = .active) (hlimit : s.HLEN.toNat + inp.length ≤ hmaxlen) :
      Effect s (.hupdate inp) ((s.extendDigest inp).emit .ok [])
  | digestFinished (inp out : List Byte) : Effect s (.hfinal inp) (s.closeDigest.emit .ok out)

/-- The checks of a command only answer; the effect is that of what they guard (R90). -/
theorem effect_of_guarded {i : Instr} {lenOk ready : Bool} {f : Status} {perform : State → Result} {s t : State}
    (h : guarded lenOk f ready perform s = .next t)
    (hp : lenOk = true → ready = true → perform s = .next t → Effect s i t) : Effect s i t := by
  obtain ⟨-, rfl⟩ | ⟨-, -, rfl⟩ | ⟨hlen, hready, h⟩ := guarded_cases h
  · exact .answered i f []
  · exact .answered i .notInitialised []
  · exact hp hlen hready h

/-- Everything a command can do (R87). -/
theorem exec_effect {i : Instr} {s t : State} (h : exec i s = .next t) : Effect s i t := by
  cases i with
  | keyinit key =>
    exact effect_of_guarded (exec_keyinit _ s ▸ h) fun hlen _ h => by
      cases h; exact .keyed (lenIsBlock_eq_true.mp hlen)
  | encblk inp =>
    exact effect_of_guarded (exec_encblk _ s ▸ h) fun _ _ h => by cases h; exact .answered _ _ _
  | decblk inp =>
    exact effect_of_guarded (exec_decblk _ s ▸ h) fun _ _ h => by cases h; exact .answered _ _ _
  | nsinit key =>
    exact effect_of_guarded (exec_nsinit _ s ▸ h) fun hlen _ h => by
      cases h; exact .tabled (lenFits_eq_true.mp hlen)
  | scramble inp =>
    exact effect_of_guarded (exec_scramble _ s ▸ h) fun _ _ h => by cases h; exact .answered _ _ _
  | unscramble inp =>
    exact effect_of_guarded (exec_unscramble _ s ▸ h) fun _ _ h => by cases h; exact .answered _ _ _
  | ainitP key =>
    exact effect_of_guarded (exec_ainitP _ s ▸ h) fun hlen _ h => by
      cases h; exact .openedPrimitive (lenIsBlock_eq_true.mp hlen)
  | ainitH key =>
    exact effect_of_guarded (exec_ainitH _ s ▸ h) fun hlen _ h => by
      cases h; exact .openedHybrid (by simp) (lenIsBlock_eq_true.mp hlen)
  | ainitH2 key =>
    exact effect_of_guarded (exec_ainitH2 _ s ▸ h) fun hlen _ h => by
      cases h; exact .openedHybrid (by simp) (lenIsBlock_eq_true.mp hlen)
  | xform inp =>
    exact effect_of_guarded (exec_xform _ s ▸ h) fun _ hopen h => by cases h; exact .transformed _ hopen
  | hinit inp =>
    exact effect_of_guarded (exec_hinit_startDigest _ s ▸ h) fun _ _ h => by cases h; exact .digestStarted inp
  | hupdate inp =>
    refine effect_of_guarded (exec_hupdate _ s ▸ h) fun _ hactive h => ?_
    obtain ⟨-, rfl⟩ | ⟨hlimit, rfl⟩ := updateSteps_cases h
    · exact .answered _ _ _
    · exact .digestExtended (hashActive_eq_true.mp hactive) hlimit
  | hfinal inp =>
    exact effect_of_guarded (exec_hfinal _ s ▸ h) fun _ _ h => by cases h; exact .digestFinished inp _

/-! ### One step -/

theorem step_of_reset {s : State} (h : s.RESET = true) : step s = .next s.applyReset := by
  simp [step, h]

theorem step_of_incomplete {s : State} (h : s.RESET = false) (hd : decode s.cmdIn = .incomplete) : step s = .next s := by
  simp [step, h, hd]

theorem step_of_illegal {s : State} {rest : List Byte} (h : s.RESET = false) (hd : decode s.cmdIn = .illegal rest) :
    step s = .next ((s.withCmdIn rest).emit .illegalCommand []) := by
  simp [step, h, hd, raise_eq]

theorem step_of_command {s : State} {i : Instr} {rest : List Byte} (h : s.RESET = false)
    (hd : decode s.cmdIn = .command i rest) : step s = exec i (s.withCmdIn rest) := by
  simp [step, h, hd]

/-- Everything a step can do: the reset, waiting, or a command's effect, an illegal frame being answered only (R73, R89, R267,
R280). -/
theorem step_cases {s t : State} (h : step s = .next t) :
    (s.RESET = true ∧ t = s.applyReset) ∨ (s.RESET = false ∧ t = s) ∨
    (s.RESET = false ∧ ∃ rest, t = (s.withCmdIn rest).emit .illegalCommand []) ∨
    (s.RESET = false ∧ ∃ i rest, Effect (s.withCmdIn rest) i t) := by
  cases hr : s.RESET with
  | true => exact .inl ⟨rfl, by simpa [step_of_reset hr] using h.symm⟩
  | false =>
    cases hd : decode s.cmdIn with
    | incomplete => exact .inr (.inl ⟨rfl, by simpa [step_of_incomplete hr hd] using h.symm⟩)
    | illegal rest =>
      exact .inr (.inr (.inl ⟨rfl, rest, by simpa [step_of_illegal hr hd] using h.symm⟩))
    | command i rest => exact .inr (.inr (.inr ⟨rfl, i, rest, exec_effect (step_of_command hr hd ▸ h)⟩))

end Sys2Proof.Machine
end

section
/-! PROOF. The invariant of the core (10_state R32, R35, R38, R42): what each update of the registers does to it. -/

namespace Sys2Proof.Machine

theorem inv_of_flags_clear {s : State} (hK : s.KVALID = false) (hT : s.TVALID = false) (hA : s.AVALID = false)
    (hH : s.HSTATE = .idle) : Inv s := by
  simp [Inv, KeyInv, TableInv, AdapterInv, HasherInv, hK, hT, hA, hH]

/-- The invariant does not speak of the response port. -/
theorem inv_emit {s : State} (st : Status) (out : List Byte) : Inv (s.emit st out) ↔ Inv s := Iff.rfl

/-- The invariant does not speak of the command port. -/
theorem inv_withCmdIn {s : State} (rest : List Byte) : Inv (s.withCmdIn rest) ↔ Inv s := Iff.rfl

/-! ### Schedule and table -/

/-- The table of any key is a bijection with its inverse (R153): the cells list every nibble value once. -/
theorem isTable_of_key (key : List Byte) : IsTable (tableC2V key) (tableV2C key) := by
  constructor
  · intro k
    have hk : k.val < (cellOrder key).length := by simp
    simp [tableV2C_getElem, tableC2V_getElem, List.Nodup.idxOf_getElem (cellOrder_nodup key) k.val hk]
  · intro v
    have hv := idxOf_cellOrder_lt key (BitVec.ofNat 4 v.val)
    simp [tableV2C_getElem, tableC2V_getElem]

/-- A new schedule is a key's, and ends the session (R115). -/
theorem inv_keySteps {s : State} {key : List Byte} (hlen : key.length = 16) (h : Inv s) : Inv (keySteps key s) := by
  obtain ⟨-, htable, -, hhash⟩ := h
  exact ⟨fun _ => ⟨key, hlen, rfl⟩, htable, nofun, hhash⟩

/-- A new table is a bijection, and ends the session (R154). -/
theorem inv_tableSteps {s : State} (key : List Byte) (h : Inv s) : Inv (tableSteps key s) := by
  obtain ⟨hkey, -, -, hhash⟩ := h
  exact ⟨by simpa [KeyInv] using hkey, fun _ => isTable_of_key key, nofun,
    by simpa [HasherInv, Absorbed, State.hashBuffer] using hhash⟩

/-! ### Sessions -/

/-- A new session stands at keystream block 1 of the schedule in force (R177 to R179). -/
theorem inv_startSession {s : State} {hybrid : Bool} (hK : s.KVALID = true) (hT : hybrid = true → s.TVALID = true)
    (h : Inv s) : Inv (startSession hybrid s) := by
  rw [startSession_eq]
  obtain ⟨hkey, htable, -, hhash⟩ := h
  exact ⟨by simpa [KeyInv] using hkey, by simpa [TableInv] using htable, fun _ => ⟨rfl, ⟨0, rfl⟩, hK, hT⟩,
    by simpa [HasherInv, Absorbed, State.hashBuffer] using hhash⟩

theorem inv_primitiveSteps {s : State} {key : List Byte} (hlen : key.length = 16) (h : Inv s) :
    Inv (primitiveSteps key s) :=
  inv_startSession rfl nofun (inv_keySteps hlen h)

theorem inv_hybridSteps {s : State} {key : List Byte} (hlen : key.length = 16) (h : Inv s) : Inv (hybridSteps key s) :=
  inv_startSession rfl (fun _ => rfl) (inv_tableSteps key (inv_keySteps hlen h))

/-- Where `FB = KS`, the block ahead is `FB` encrypted that often (R179). -/
theorem blockAhead_eq_iterate {s : State} (h : s.FB = s.KS) (j : Nat) : s.blockAhead j = (encBlock s.S)^[j] s.FB := by
  cases j with
  | zero => exact h.symm
  | succ j => rfl

/-- Encrypting a keystream block gives a later one (R179). -/
theorem iterate_keystreamBlock (S : Vector Word 44) (j n : Nat) :
    (encBlock S)^[j] (keystreamBlock S n) = keystreamBlock S (j + n) :=
  (Function.iterate_add_apply _ j n _).symm

/-- Taking keystream bytes moves an open session along the keystream of its schedule (R38, R180). -/
theorem inv_nextKS {s : State} (n : Nat) (h : Inv s) : Inv (s.nextKS n).2 := by
  rw [nextKS_state]
  obtain ⟨hkey, htable, hadapter, hhash⟩ := h
  refine ⟨hkey, htable, fun hopen => ?_, hhash⟩
  obtain ⟨hFB, ⟨m, hKS⟩, hvalid⟩ := hadapter hopen
  have hblock := blockAhead_eq_iterate hFB ((s.CUR.val + n) / 16)
  refine ⟨hblock.symm, ⟨(s.CUR.val + n) / 16 + m, ?_⟩, hvalid⟩
  rw [hblock, hFB, hKS, iterate_keystreamBlock]
  rfl

/-! ### Digests -/

/-- After HINIT the empty message has been absorbed (R201). -/
theorem inv_startDigest {s : State} (h : Inv s) : Inv s.startDigest := by
  obtain ⟨hkey, htable, hadapter, -⟩ := h
  exact ⟨hkey, htable, hadapter, fun _ => ⟨Nat.zero_le _, [], rfl, rfl, rfl, nofun⟩⟩

/-- Absorbing a piece within the message limit extends the message absorbed (R203). -/
theorem inv_extendDigest {s : State} {inp : List Byte} (hactive : s.HSTATE = .active)
    (hlimit : s.HLEN.toNat + inp.length ≤ hmaxlen) (h : Inv s) :
    Inv (s.extendDigest inp) := by
  obtain ⟨hkey, htable, hadapter, hhash⟩ := h
  obtain ⟨-, msg, hcount, hbuf⟩ := hhash hactive
  have hlen : (s.extendDigest inp).HLEN.toNat = s.HLEN.toNat + inp.length := by
    simp only [hmaxlen] at hlimit
    rw [State.extendDigest, BitVec.toNat_add, BitVec.toNat_ofNat]
    omega
  refine ⟨hkey, htable, hadapter, fun _ => ⟨hlen ▸ hlimit, msg ++ inp, ?_, absorbAll_buffered inp msg _ hbuf⟩⟩
  rw [hlen, hcount, List.length_append]

/-- After HFINAL no digest is in progress (R208). -/
theorem inv_closeDigest {s : State} (h : Inv s) : Inv s.closeDigest := by
  obtain ⟨hkey, htable, hadapter, -⟩ := h
  exact ⟨hkey, htable, hadapter, nofun⟩

/-! ### Every command and every step -/

theorem effect_inv {i : Instr} {s t : State} (e : Effect s i t) (h : Inv s) : Inv t := by
  cases e with
  | answered => exact (inv_emit _ _).mpr h
  | keyed hlen => exact (inv_emit _ _).mpr (inv_keySteps hlen h)
  | tabled => exact (inv_emit _ _).mpr (inv_tableSteps _ h)
  | openedPrimitive hlen => exact (inv_emit _ _).mpr (inv_primitiveSteps hlen h)
  | openedHybrid _ hlen => exact (inv_emit _ _).mpr (inv_hybridSteps hlen h)
  | transformed => exact (inv_emit _ _).mpr (inv_nextKS _ h)
  | digestStarted => exact (inv_emit _ _).mpr (inv_startDigest h)
  | digestExtended hactive hlimit => exact (inv_emit _ _).mpr (inv_extendDigest hactive hlimit h)
  | digestFinished => exact (inv_emit _ _).mpr (inv_closeDigest h)

/-- Settles O52: at reset the four flags are clear. -/
theorem resetMeetsInvariants : Obligations.ResetMeetsInvariants := inv_of_flags_clear rfl rfl rfl rfl

/-- Settles O53: the reset input clears the four flags, and every effect of a command keeps the invariant. -/
theorem stepKeepsInvariants : Obligations.StepKeepsInvariants := by
  intro s t h hstep
  obtain ⟨-, rfl⟩ | ⟨-, rfl⟩ | ⟨-, rest, rfl⟩ | ⟨-, i, rest, e⟩ := step_cases hstep
  · exact inv_of_flags_clear rfl rfl rfl rfl
  · exact h
  · exact (inv_emit _ _).mpr ((inv_withCmdIn rest).mpr h)
  · exact effect_inv e ((inv_withCmdIn rest).mpr h)

end Sys2Proof.Machine
end

section
/-! PROOF. Who writes the registers (10_state R31 to R40, R49, R50), from what each command can do. -/

namespace Sys2Proof.Machine

/-- Settles O47: of all effects only those of KEYINIT and AINIT touch S and KVALID, and they load the key's schedule. -/
theorem onlyKeyCommandsWriteSchedule : Obligations.OnlyKeyCommandsWriteSchedule := by
  intro i s t h
  cases exec_effect h with
  | keyed hlen => exact .inr ⟨_, hlen, by simp, rfl, rfl⟩
  | openedPrimitive hlen => exact .inr ⟨_, hlen, by simp, by simp, by simp⟩
  | openedHybrid hi hlen =>
    exact .inr ⟨_, hlen, List.mem_cons_of_mem _ (List.mem_cons_of_mem _ hi), by simp, by simp⟩
  | transformed => exact .inl (by simp [nextKS_state])
  | tabled => exact .inl (by simp)
  | answered | digestStarted | digestExtended | digestFinished => exact .inl ⟨rfl, rfl⟩

/-- Settles O48: of all effects only those of NSINIT and the hybrid AINIT touch the table and TVALID. -/
theorem onlyTableCommandsWriteTable : Obligations.OnlyTableCommandsWriteTable := by
  intro i s t h
  cases exec_effect h with
  | tabled hlen => exact .inr ⟨_, .inl ⟨hlen, rfl⟩, rfl, rfl, rfl⟩
  | openedHybrid hi hlen => exact .inr ⟨_, .inr ⟨hlen, hi⟩, by simp, by simp, by simp⟩
  | transformed => exact .inl (by simp [nextKS_state])
  | keyed | openedPrimitive => exact .inl (by simp)
  | answered | digestStarted | digestExtended | digestFinished => exact .inl ⟨rfl, rfl, rfl⟩

/-- Settles O49: AINIT may write all of the adapter, XFORM moves FB, KS and CUR where it has a payload, and a new schedule or table
clears AVALID. -/
theorem onlyAdapterCommandsWriteSession : Obligations.OnlyAdapterCommandsWriteSession := by
  intro i s t h isAinit
  cases exec_effect h with
  | keyed hlen => exact ⟨.inl (by simp), .inl (by simp), by simp, fun _ _ => ⟨_, .inl ⟨hlen, rfl⟩⟩⟩
  | tabled hlen => exact ⟨.inl (by simp), .inl (by simp), by simp, fun _ _ => ⟨_, .inr ⟨hlen, rfl⟩⟩⟩
  | @openedPrimitive key hlen =>
    have ha : isAinit := ⟨key, hlen, by simp⟩
    exact ⟨.inr (.inl ha), .inr ha, fun _ _ => ha, by simp⟩
  | @openedHybrid _ key hi hlen =>
    have ha : isAinit := ⟨key, hlen, List.mem_cons_of_mem _ hi⟩
    exact ⟨.inr (.inl ha), .inr ha, fun _ _ => ha, by simp⟩
  | @transformed inp out hopen =>
    refine ⟨?_, .inl (by simp [nextKS_state]), by simp [nextKS_state, hopen], by simp [nextKS_state, hopen]⟩
    cases inp with
    | nil => exact .inl ⟨rfl, rfl, rfl⟩
    | cons b inp => exact .inr (.inr ⟨b :: inp, List.cons_ne_nil b inp, rfl⟩)
  | answered | digestStarted | digestExtended | digestFinished =>
    exact ⟨.inl ⟨rfl, rfl, rfl⟩, .inl rfl, fun hclosed hopen => absurd (hopen.symm.trans hclosed) Bool.noConfusion,
      fun hopen hclosed => absurd (hopen.symm.trans hclosed) Bool.noConfusion⟩

/-- No effect of a command clears KVALID or TVALID (R32, R36). -/
theorem effect_validity {i : Instr} {s t : State} (e : Effect s i t) :
    (s.KVALID = true → t.KVALID = true) ∧ (s.TVALID = true → t.TVALID = true) := by
  cases e with
  | answered | digestStarted | digestExtended | digestFinished => exact ⟨id, id⟩
  | keyed | tabled | openedPrimitive | openedHybrid => simp
  | transformed => simp [nextKS_state]

/-- Settles O51: waiting and answering write no flag, and no effect of a command clears these two. -/
theorem validityFlagsSurviveCommands : Obligations.ValidityFlagsSurviveCommands := by
  intro s t hr hstep
  obtain ⟨hr', -⟩ | ⟨-, rfl⟩ | ⟨-, rest, rfl⟩ | ⟨-, i, rest, e⟩ := step_cases hstep
  · simp [hr] at hr'
  · exact ⟨id, id⟩
  · exact ⟨id, id⟩
  · simpa using effect_validity e

/-- Settles O55: the fields of the reset state. -/
theorem resetStateFlags : Obligations.ResetStateFlags := ⟨rfl, rfl, rfl, rfl, rfl, rfl, rfl⟩

end Sys2Proof.Machine
end

section
/-! PROOF. What a command reads: from two states that agree on it, the command answers alike. -/

namespace Sys2Proof.Machine

/-- Both results send the same response frame (R85), from states that `R` relates. -/
def AnswersAlike (R : State → State → Prop) (r r' : Result) : Prop :=
  ∃ (st : Status) (out : List Byte) (u u' : State), r = .next (u.emit st out) ∧ r' = .next (u'.emit st out) ∧ R u u'

variable {R : State → State → Prop} {s t : State}

theorem respond_alike {out out' : List Byte} {u u' : State} (hout : out = out') (h : R u u') :
    AnswersAlike R (respond out u) (respond out' u') :=
  ⟨.ok, out, u, u', rfl, hout ▸ rfl, h⟩

theorem raise_alike (f : Status) (h : R s t) : AnswersAlike R (raise f s) (raise f t) := ⟨f, [], s, t, rfl, rfl, h⟩

/-- Two commands with the same checks answer alike where what they perform does (R90). -/
theorem guarded_alike {lenOk lenOk' ready ready' : Bool} {f : Status} {perform perform' : State → Result}
    (hlen : lenOk = lenOk') (hready : ready = ready') (h : R s t)
    (hp : lenOk = true → ready = true → AnswersAlike R (perform s) (perform' t)) :
    AnswersAlike R (guarded lenOk f ready perform s) (guarded lenOk' f ready' perform' t) := by
  subst hlen hready
  cases lenOk with
  | false => exact raise_alike f h
  | true =>
    cases ready with
    | false => exact raise_alike .notInitialised h
    | true => exact hp rfl rfl

theorem lenFits_congr (hp : s.params = t.params) (inp : List Byte) : lenFits inp s = lenFits inp t := by
  rw [lenFits, lenFits, hp]

/-! ### The keystream -/

theorem blockAhead_congr (hS : s.S = t.S) (hFB : s.FB = t.FB) (hKS : s.KS = t.KS) (j : Nat) :
    s.blockAhead j = t.blockAhead j := by
  rw [State.blockAhead, State.blockAhead, hS, hFB, hKS]

/-- Keystream bytes come from S, FB, KS and CUR alone (R180). -/
theorem nextKS_bytes_congr (hS : s.S = t.S) (hFB : s.FB = t.FB) (hKS : s.KS = t.KS) (hCUR : s.CUR = t.CUR) (n : Nat) :
    (s.nextKS n).1 = (t.nextKS n).1 := by
  simp only [nextKS_bytes, State.keystreamAhead, blockAhead_congr hS hFB hKS, hCUR]

/-- Where a session stands after `n` keystream bytes comes from S, FB, KS and CUR alone (R180). -/
theorem nextKS_session_congr (hS : s.S = t.S) (hFB : s.FB = t.FB) (hKS : s.KS = t.KS) (hCUR : s.CUR = t.CUR) (n : Nat) :
    (s.nextKS n).2.FB = (t.nextKS n).2.FB ∧ (s.nextKS n).2.KS = (t.nextKS n).2.KS ∧
      (s.nextKS n).2.CUR = (t.nextKS n).2.CUR := by
  simp only [nextKS_state, blockAhead_congr hS hFB hKS, hS, hFB, hCUR, and_self]

/-- The mask of a session comes from AVAR and, in a hybrid session only, from the table (R182, R183). -/
theorem maskOf_congr (hA : s.AVAR = t.AVAR) (hT : s.AVAR = true → s.C2V = t.C2V ∧ s.V2C = t.V2C) (Y : List Byte) :
    maskOf s Y = maskOf t Y := by
  unfold maskOf
  rw [← hA]
  split
  case isTrue hybrid =>
    obtain ⟨hC, hV⟩ := hT hybrid
    rw [hC, hV]
  case isFalse => rfl

theorem xformSteps_alike (inp : List Byte) (hS : s.S = t.S) (hFB : s.FB = t.FB) (hKS : s.KS = t.KS) (hCUR : s.CUR = t.CUR)
    (hA : s.AVAR = t.AVAR) (hT : s.AVAR = true → s.C2V = t.C2V ∧ s.V2C = t.V2C)
    (h : R (s.nextKS inp.length).2 (t.nextKS inp.length).2) : AnswersAlike R (xformSteps inp s) (xformSteps inp t) :=
  respond_alike (by rw [maskOf_congr hA hT, nextKS_bytes_congr hS hFB hKS hCUR]) h

/-! ### The digest -/

theorem updateSteps_alike {inp : List Byte} (hlen : s.HLEN = t.HLEN) (h : R s t)
    (hn : R (s.extendDigest inp) (t.extendDigest inp)) :
    AnswersAlike R (updateSteps inp s) (updateSteps inp t) := by
  by_cases hlimit : s.HLEN.toNat + inp.length > hmaxlen
  · rw [updateSteps_extendDigest, updateSteps_extendDigest, if_pos hlimit, if_pos (hlen ▸ hlimit)]
    exact raise_alike .lengthError h
  · rw [updateSteps_extendDigest, updateSteps_extendDigest, if_neg hlimit, if_neg (hlen ▸ hlimit)]
    exact respond_alike rfl hn

theorem finalSteps_alike (hn : s.HBUFN = t.HBUFN) (hlen : s.HLEN = t.HLEN)
    (hH : ∀ bytes, (s.absorb bytes).H = (t.absorb bytes).H) (h : R s.closeDigest t.closeDigest) :
    AnswersAlike R (finalSteps s) (finalSteps t) :=
  respond_alike (by rw [hn, hlen, hH]) h

end Sys2Proof.Machine
end

section
/-! PROOF. The hasher and the other units are independent (10_state R50). -/

namespace Sys2Proof.Machine

/-! ### What each side writes -/

/-- A hash command writes no register of the other units. -/
theorem effect_sameCipher {i : Instr} {s t : State} (e : Effect s i t) (hi : i.isHash = true) : SameCipher s t := by
  cases e with
  | answered | digestStarted | digestExtended | digestFinished =>
    exact ⟨rfl, rfl, rfl, rfl, rfl, rfl, rfl, rfl, rfl, rfl⟩
  | openedHybrid h => simp at h; rcases h with rfl | rfl <;> cases hi
  | keyed | tabled | openedPrimitive | transformed => cases hi

/-- A command of the other units writes no register of the hasher. -/
theorem effect_sameHasher {i : Instr} {s t : State} (e : Effect s i t) (hi : i.isHash = false) : SameHasher s t := by
  cases e with
  | answered => exact ⟨rfl, rfl, rfl, rfl, rfl⟩
  | keyed | tabled | openedPrimitive | openedHybrid => simp [SameHasher]
  | transformed => simp [SameHasher, nextKS_state]
  | digestStarted | digestExtended | digestFinished => cases hi

/-! ### What the cipher's side reads -/

section
variable {s t : State}

theorem sameCipher_keySteps (key : List Byte) (hp : s.params = t.params) (h : SameCipher s t) :
    SameCipher (keySteps key s) (keySteps key t) := by
  simp_all [SameCipher]

theorem sameCipher_tableSteps (key : List Byte) (h : SameCipher s t) :
    SameCipher (tableSteps key s) (tableSteps key t) := by
  simp_all [SameCipher]

theorem sameCipher_startSession (hybrid : Bool) (h : SameCipher s t) :
    SameCipher (startSession hybrid s) (startSession hybrid t) := by
  simp_all [SameCipher]

theorem sameCipher_nextKS (n : Nat) (h : SameCipher s t) : SameCipher (s.nextKS n).2 (t.nextKS n).2 := by
  obtain ⟨hS, hK, hC, hV, hT, hFB, hKS, hCUR, hAVAR, hA⟩ := h
  obtain ⟨hFB', hKS', hCUR'⟩ := nextKS_session_congr hS hFB hKS hCUR n
  refine ⟨?_, ?_, ?_, ?_, ?_, hFB', hKS', hCUR', ?_, ?_⟩ <;> simpa [nextKS_state]

end

/-- `u` and `u'` have answered nothing since `s` and `s'`, and agree on the registers of the cipher's side. -/
def CipherAlike (s s' u u' : State) : Prop := u.respOut = s.respOut ∧ u'.respOut = s'.respOut ∧ SameCipher u u'

theorem exec_cipherAlike {i : Instr} {s s' : State} (hi : i.isHash = false) (hp : s.params = s'.params)
    (h : SameCipher s s') : AnswersAlike (CipherAlike s s') (exec i s) (exec i s') := by
  have same : CipherAlike s s' s s' := ⟨rfl, rfl, h⟩
  have hkey (key : List Byte) := sameCipher_keySteps key hp h
  have keyed (key : List Byte) : CipherAlike s s' (keySteps key s) (keySteps key s') :=
    ⟨by simp, by simp, hkey key⟩
  have tabled (key : List Byte) : CipherAlike s s' (tableSteps key s) (tableSteps key s') :=
    ⟨by simp, by simp, sameCipher_tableSteps key h⟩
  have primitive (key : List Byte) : CipherAlike s s' (primitiveSteps key s) (primitiveSteps key s') :=
    ⟨by simp, by simp, sameCipher_startSession false (hkey key)⟩
  have hybrid (key : List Byte) : CipherAlike s s' (hybridSteps key s) (hybridSteps key s') :=
    ⟨by simp, by simp, sameCipher_startSession true (sameCipher_tableSteps key (hkey key))⟩
  have transformed (n : Nat) : CipherAlike s s' (s.nextKS n).2 (s'.nextKS n).2 :=
    ⟨by simp [nextKS_state], by simp [nextKS_state], sameCipher_nextKS n h⟩
  obtain ⟨hS, hK, hC, hV, hT, hFB, hKS, hCUR, hAVAR, hA⟩ := id h
  have hfits (inp : List Byte) := lenFits_congr hp inp
  cases i with
  | keyinit key =>
    rw [exec_keyinit, exec_keyinit]
    exact guarded_alike rfl rfl same fun _ _ => respond_alike rfl (keyed key)
  | encblk inp =>
    rw [exec_encblk, exec_encblk]
    exact guarded_alike rfl hK same fun _ _ => respond_alike (by rw [hS]) same
  | decblk inp =>
    rw [exec_decblk, exec_decblk]
    exact guarded_alike rfl hK same fun _ _ => respond_alike (by rw [hS]) same
  | nsinit key =>
    rw [exec_nsinit, exec_nsinit]
    exact guarded_alike (hfits key) rfl same fun _ _ => respond_alike rfl (tabled key)
  | scramble inp =>
    rw [exec_scramble, exec_scramble]
    exact guarded_alike (hfits inp) hT same fun _ _ => respond_alike (by rw [hC, hV]) same
  | unscramble inp =>
    rw [exec_unscramble, exec_unscramble]
    exact guarded_alike (hfits inp) hT same fun _ _ => respond_alike (by rw [hC]) same
  | ainitP key =>
    rw [exec_ainitP, exec_ainitP]
    exact guarded_alike rfl rfl same fun _ _ => respond_alike rfl (primitive key)
  | ainitH key =>
    rw [exec_ainitH, exec_ainitH]
    exact guarded_alike rfl rfl same fun _ _ => respond_alike rfl (hybrid key)
  | ainitH2 key =>
    rw [exec_ainitH2, exec_ainitH2]
    exact guarded_alike rfl rfl same fun _ _ => respond_alike rfl (hybrid key)
  | xform inp =>
    rw [exec_xform, exec_xform]
    exact guarded_alike (hfits inp) hA same fun _ _ =>
      xformSteps_alike inp hS hFB hKS hCUR hAVAR (fun _ => ⟨hC, hV⟩) (transformed _)
  | hinit | hupdate | hfinal => cases hi

/-! ### What the hasher reads -/

/-- `u` and `u'` have answered nothing since `s` and `s'`, and agree on the hasher's registers, but for free values drawn at
different indices (log entry 4). -/
def HasherAlike (s s' u u' : State) : Prop :=
  u.respOut = s.respOut ∧ u'.respOut = s'.respOut ∧ u.HSTATE = u'.HSTATE ∧
    (u.HSTATE = .active ∨ s.opens = s'.opens → SameHasher u u')

theorem hasherAlike_of_sameHasher {s s' u u' : State} (hr : u.respOut = s.respOut) (hr' : u'.respOut = s'.respOut)
    (h : SameHasher u u') : HasherAlike s s' u u' := by
  obtain ⟨-, -, -, -, hstate⟩ := id h
  exact ⟨hr, hr', hstate, fun _ => h⟩

/-- The registers HFINAL leaves open agree where the free values are drawn at one index (R208). -/
theorem hasherAlike_closeDigest (s s' : State) : HasherAlike s s' s.closeDigest s'.closeDigest := by
  refine ⟨rfl, rfl, rfl, ?_⟩
  rintro (hactive | hopens)
  · cases hactive
  · simp [SameHasher, hopens]

theorem hashBuffer_congr {s s' : State} (h : SameHasher s s') : s.hashBuffer = s'.hashBuffer := by
  obtain ⟨hH, hB, hN, -, -⟩ := h
  rw [State.hashBuffer, State.hashBuffer, hH, hB, hN]

theorem exec_hasherAlike {i : Instr} {s s' : State} (hi : i.isHash = true) (hp : s.params = s'.params)
    (h : SameHasher s s') : AnswersAlike (HasherAlike s s') (exec i s) (exec i s') := by
  have same : HasherAlike s s' s s' := hasherAlike_of_sameHasher rfl rfl h
  have hbuf := hashBuffer_congr h
  obtain ⟨hH, hB, hN, hlen, hstate⟩ := id h
  have hactive : hashActive s = hashActive s' := by rw [hashActive, hashActive, hstate]
  cases i with
  | hinit inp =>
    rw [exec_hinit_startDigest, exec_hinit_startDigest]
    have started : HasherAlike s s' s.startDigest s'.startDigest :=
      hasherAlike_of_sameHasher rfl rfl ⟨rfl, hB, rfl, rfl, rfl⟩
    exact guarded_alike rfl rfl same fun _ _ => respond_alike rfl started
  | hupdate inp =>
    rw [exec_hupdate, exec_hupdate]
    refine guarded_alike (lenFits_congr hp inp) hactive same fun _ _ => updateSteps_alike hlen same ?_
    exact hasherAlike_of_sameHasher rfl rfl (by simp [SameHasher, State.extendDigest, State.absorb, hbuf, hlen, hstate])
  | hfinal inp =>
    rw [exec_hfinal, exec_hfinal]
    exact guarded_alike rfl hactive same fun _ _ =>
      finalSteps_alike hN hlen (fun bytes => by simp [State.absorb, hbuf]) (hasherAlike_closeDigest s s')
  | keyinit | encblk | decblk | nsinit | scramble | unscramble | ainitP | ainitH | ainitH2 | xform => cases hi

/-- Settles O50: neither side writes a register of the other, and each answers alike from states that agree on its own. -/
theorem hashAndCipherIndependent : Obligations.HashAndCipherIndependent := by
  refine ⟨fun i s t h => ⟨effect_sameCipher (exec_effect h), effect_sameHasher (exec_effect h)⟩, ?_⟩
  intro i s s' t hp h
  constructor
  · intro hi hsame
    obtain ⟨st, out, u, u', hu, hu', hr, hr', halike⟩ := exec_hasherAlike hi hp hsame
    obtain rfl : u.emit st out = t := by simpa [hu] using h
    exact ⟨u'.emit st out, responseFrame st out, hu', by simp [hr], by simp [hr'], halike⟩
  · intro hi hsame
    obtain ⟨st, out, u, u', hu, hu', hr, hr', halike⟩ := exec_cipherAlike hi hp hsame
    obtain rfl : u.emit st out = t := by simpa [hu] using h
    exact ⟨u'.emit st out, responseFrame st out, hu', by simp [hr], by simp [hr'], halike⟩

end Sys2Proof.Machine
end

section
/-! PROOF. Storage whose validity flag is clear cannot be observed (10_state R49). -/

namespace Sys2Proof.Machine

/-! ### The used part of the hasher's buffer -/

/-- The buffer registers agree, HBUF as far as it is in use (R42). -/
def SameBuffer (r r' : HashBuffer) : Prop :=
  r.H = r'.H ∧ r.HBUFN = r'.HBUFN ∧ ∀ i : Fin 64, i.val < r.HBUFN.val → r.HBUF[i] = r'.HBUF[i]

/-- `SameDigest` through the registers absorbing works on. -/
theorem sameDigest_iff {s t : State} :
    SameDigest s t ↔ SameBuffer s.hashBuffer t.hashBuffer ∧ s.HLEN = t.HLEN := by
  simp only [SameDigest, SameBuffer, State.hashBuffer]
  tauto

/-- A byte written behind the used part leaves the used part and the byte in agreement. -/
theorem set_getElem_congr {B B' : Vector Byte 64} {n : Fin 64} (b : Byte) (h : ∀ i : Fin 64, i.val < n.val → B[i] = B'[i])
    (i : Nat) (hi : i < 64) (hin : i ≤ n.val) : (B.set n b)[i] = (B'.set n b)[i] := by
  rw [Vector.getElem_set, Vector.getElem_set]
  split
  case isTrue => rfl
  case isFalse hne => exact h ⟨i, hi⟩ (by change i < n.val; omega)

/-- Absorbing reads the used part of HBUF only: a full buffer is used to its end when it is compressed (R203). -/
theorem absorbByte_sameBuffer {r r' : HashBuffer} (b : Byte) (h : SameBuffer r r') :
    SameBuffer (absorbByte r b) (absorbByte r' b) := by
  obtain ⟨H, B, n⟩ := r
  obtain ⟨H', B', n'⟩ := r'
  obtain ⟨hH, hn, hB⟩ := h
  simp only at hH hn hB
  subst hH hn
  have hset := set_getElem_congr b hB
  by_cases hfull : n = 63
  · have hwhole : B.set n b = B'.set n b := Vector.ext fun i hi => hset i hi (by rw [hfull]; change i ≤ 63; omega)
    simp only [absorbByte, if_pos hfull, hwhole]
    exact ⟨rfl, rfl, fun _ _ => rfl⟩
  · have hval : (n + 1).val = n.val + 1 := Fin.val_add_one_of_lt (Fin.lt_last_iff_ne_last.mpr hfull)
    simp only [absorbByte, if_neg hfull]
    exact ⟨rfl, rfl, fun i hi => hset i.val i.isLt (by simp only [hval] at hi; omega)⟩

theorem absorbAll_sameBuffer (bytes : List Byte) {r r' : HashBuffer} (h : SameBuffer r r') :
    SameBuffer (absorbAll bytes r) (absorbAll bytes r') := by
  induction bytes generalizing r r' with
  | nil => exact h
  | cons b bytes ih => exact ih (absorbByte_sameBuffer b h)

/-- Absorbing a piece keeps what is visible of a digest in agreement. -/
theorem sameDigest_extendDigest {s t : State} (inp : List Byte) (h : SameDigest s t) :
    SameDigest (s.extendDigest inp) (t.extendDigest inp) := by
  obtain ⟨hbuf, hlen⟩ := sameDigest_iff.mp h
  exact sameDigest_iff.mpr ⟨absorbAll_sameBuffer inp hbuf, by simp only [State.extendDigest, hlen]⟩

/-! ### What each update keeps visible -/

section
variable {s t : State}

theorem sameVisible_emit (st : Status) (out : List Byte) (h : SameVisible s t) :
    SameVisible (s.emit st out) (t.emit st out) := by
  obtain ⟨hp, hin, hout, hstore⟩ := h
  exact ⟨hp, hin, by simp [hout], hstore⟩

theorem sameVisible_withCmdIn (rest : List Byte) (h : SameVisible s t) :
    SameVisible (s.withCmdIn rest) (t.withCmdIn rest) := by
  obtain ⟨hp, hin, hstore⟩ := h
  exact ⟨hp, rfl, hstore⟩

theorem sameVisible_applyReset (hp : s.params = t.params) : SameVisible s.applyReset t.applyReset := by
  simp [SameVisible, hp]

/-- A new schedule is a function of the key and the parameters, and the session it ends is no longer visible (R115). -/
theorem sameVisible_keySteps (key : List Byte) (h : SameVisible s t) :
    SameVisible (keySteps key s) (keySteps key t) := by
  simp_all [SameVisible, SameDigest]

/-- A new table is a function of the key, and the session it ends is no longer visible (R154). -/
theorem sameVisible_tableSteps (key : List Byte) (h : SameVisible s t) :
    SameVisible (tableSteps key s) (tableSteps key t) := by
  simp_all [SameVisible, SameDigest]

/-- A session opened on a valid schedule is visible whole (R177). -/
theorem sameVisible_startSession (hybrid : Bool) (hK : s.KVALID = true) (h : SameVisible s t) :
    SameVisible (startSession hybrid s) (startSession hybrid t) := by
  simp_all [SameVisible, SameDigest]

/-- An open session moves along its keystream alike (R180). -/
theorem sameVisible_nextKS (n : Nat) (hK : s.KVALID = true) (hopen : s.AVALID = true) (h : SameVisible s t) :
    SameVisible (s.nextKS n).2 (t.nextKS n).2 := by
  obtain ⟨hp, hin, hout, hR, hK', hT, hA, hH, hS, htable, hsession, hdigest⟩ := h
  obtain ⟨hFB, hKS, hCUR, hAVAR⟩ := hsession hopen
  obtain ⟨hFB', hKS', hCUR'⟩ := nextKS_session_congr (hS hK) hFB hKS hCUR n
  simp only [nextKS_state] at hFB' hKS' hCUR' ⊢
  exact ⟨hp, hin, hout, hR, hK', hT, hA, hH, hS, htable, fun _ => ⟨hFB', hKS', hCUR', hAVAR⟩, hdigest⟩

theorem sameVisible_startDigest (h : SameVisible s t) :
    SameVisible s.startDigest t.startDigest := by
  obtain ⟨hp, hin, hout, hR, hK, hT, hA, -, hS, htable, hsession, -⟩ := h
  exact ⟨hp, hin, hout, hR, hK, hT, hA, rfl, hS, htable, hsession, fun _ => ⟨rfl, rfl, rfl, nofun⟩⟩

theorem sameVisible_extendDigest (inp : List Byte) (h : SameVisible s t) :
    SameVisible (s.extendDigest inp) (t.extendDigest inp) := by
  obtain ⟨hp, hin, hout, hR, hK, hT, hA, hH, hS, htable, hsession, hdigest⟩ := h
  exact ⟨hp, hin, hout, hR, hK, hT, hA, hH, hS, htable, hsession, fun hactive => sameDigest_extendDigest inp (hdigest hactive)⟩

theorem sameVisible_closeDigest (h : SameVisible s t) : SameVisible s.closeDigest t.closeDigest := by
  obtain ⟨hp, hin, hout, hR, hK, hT, hA, -, hS, htable, hsession, -⟩ := h
  exact ⟨hp, hin, hout, hR, hK, hT, hA, rfl, hS, htable, hsession, nofun⟩

/-! ### Every command -/

/-- A command reads storage only where its checks have found the flag set; an open session's schedule and table are valid by the
invariant (R38). -/
theorem exec_sameVisible (i : Instr) (hinv : Inv s) (h : SameVisible s t) :
    AnswersAlike SameVisible (exec i s) (exec i t) := by
  obtain ⟨-, -, hadapter, -⟩ := hinv
  have hkey (key : List Byte) := sameVisible_keySteps key h
  obtain ⟨hp, -, -, -, hK, hT, hA, hH, hS, htable, hsession, hdigest⟩ := id h
  have hfits (inp : List Byte) := lenFits_congr hp inp
  have hactive : hashActive s = hashActive t := by rw [hashActive, hashActive, hH]
  have primitive (key : List Byte) : SameVisible (primitiveSteps key s) (primitiveSteps key t) :=
    sameVisible_startSession false (by simp) (hkey key)
  have hybrid (key : List Byte) : SameVisible (hybridSteps key s) (hybridSteps key t) :=
    sameVisible_startSession true (by simp) (sameVisible_tableSteps key (hkey key))
  cases i with
  | keyinit key =>
    rw [exec_keyinit, exec_keyinit]
    exact guarded_alike rfl rfl h fun _ _ => respond_alike rfl (hkey key)
  | encblk inp =>
    rw [exec_encblk, exec_encblk]
    exact guarded_alike rfl hK h fun _ hvalid => respond_alike (by rw [hS hvalid]) h
  | decblk inp =>
    rw [exec_decblk, exec_decblk]
    exact guarded_alike rfl hK h fun _ hvalid => respond_alike (by rw [hS hvalid]) h
  | nsinit key =>
    rw [exec_nsinit, exec_nsinit]
    exact guarded_alike (hfits key) rfl h fun _ _ => respond_alike rfl (sameVisible_tableSteps key h)
  | scramble inp =>
    rw [exec_scramble, exec_scramble]
    refine guarded_alike (hfits inp) hT h fun _ hvalid => ?_
    obtain ⟨hC, hV⟩ := htable hvalid
    exact respond_alike (by rw [hC, hV]) h
  | unscramble inp =>
    rw [exec_unscramble, exec_unscramble]
    refine guarded_alike (hfits inp) hT h fun _ hvalid => ?_
    obtain ⟨hC, -⟩ := htable hvalid
    exact respond_alike (by rw [hC]) h
  | ainitP key =>
    rw [exec_ainitP, exec_ainitP]
    exact guarded_alike rfl rfl h fun _ _ => respond_alike rfl (primitive key)
  | ainitH key =>
    rw [exec_ainitH, exec_ainitH]
    exact guarded_alike rfl rfl h fun _ _ => respond_alike rfl (hybrid key)
  | ainitH2 key =>
    rw [exec_ainitH2, exec_ainitH2]
    exact guarded_alike rfl rfl h fun _ _ => respond_alike rfl (hybrid key)
  | xform inp =>
    rw [exec_xform, exec_xform]
    refine guarded_alike (hfits inp) hA h fun _ hopen => ?_
    obtain ⟨-, -, hvalid, hybridTable⟩ := hadapter hopen
    obtain ⟨hFB, hKS, hCUR, hAVAR⟩ := hsession hopen
    exact xformSteps_alike inp (hS hvalid) hFB hKS hCUR hAVAR (fun hyb => htable (hybridTable hyb))
      (sameVisible_nextKS _ hvalid hopen h)
  | hinit inp =>
    rw [exec_hinit_startDigest, exec_hinit_startDigest]
    exact guarded_alike rfl rfl h fun _ _ => respond_alike rfl (sameVisible_startDigest h)
  | hupdate inp =>
    rw [exec_hupdate, exec_hupdate]
    refine guarded_alike (hfits inp) hactive h fun _ hact => ?_
    obtain ⟨-, hlen⟩ := sameDigest_iff.mp (hdigest (hashActive_eq_true.mp hact))
    exact updateSteps_alike hlen h (sameVisible_extendDigest inp h)
  | hfinal inp =>
    rw [exec_hfinal, exec_hfinal]
    refine guarded_alike rfl hactive h fun _ hact => ?_
    obtain ⟨hbuf, hlen⟩ := sameDigest_iff.mp (hdigest (hashActive_eq_true.mp hact))
    obtain ⟨-, hn, -⟩ := id hbuf
    exact finalSteps_alike hn hlen (fun bytes => (absorbAll_sameBuffer bytes hbuf).1) (sameVisible_closeDigest h)

end

/-- Settles O54: reset, waiting and an illegal frame read the ports only, and a command answers alike from both states. -/
theorem unspecifiedStorageIsUnobservable : Obligations.UnspecifiedStorageIsUnobservable := by
  intro s t s' hinv _ h hstep
  obtain ⟨hp, hin, -, hR, -⟩ := id h
  cases hr : s.RESET with
  | true =>
    obtain rfl : s.applyReset = s' := by simpa [step_of_reset hr] using hstep
    exact ⟨_, step_of_reset (hR ▸ hr), sameVisible_applyReset hp⟩
  | false =>
    have hr' : t.RESET = false := hR ▸ hr
    cases hd : decode s.cmdIn with
    | incomplete =>
      obtain rfl : s = s' := by simpa [step_of_incomplete hr hd] using hstep
      exact ⟨t, step_of_incomplete hr' (hin ▸ hd), h⟩
    | illegal rest =>
      obtain rfl : (s.withCmdIn rest).emit .illegalCommand [] = s' := by simpa [step_of_illegal hr hd] using hstep
      exact ⟨_, step_of_illegal hr' (hin ▸ hd), sameVisible_emit _ _ (sameVisible_withCmdIn rest h)⟩
    | command i rest =>
      obtain ⟨st, out, u, u', hu, hu', halike⟩ :=
        exec_sameVisible i ((inv_withCmdIn rest).mpr hinv) (sameVisible_withCmdIn rest h)
      obtain rfl : u.emit st out = s' := by simpa [step_of_command hr hd, hu] using hstep
      exact ⟨_, (step_of_command hr' (hin ▸ hd)).trans hu', sameVisible_emit st out halike⟩

end Sys2Proof.Machine
end

section
/-! PROOF. Performing commands (20_memory): a step performs the command decoded (R70, R73), and the setup commands are
idempotent (R74). -/

namespace Sys2Proof.Machine

/-- Settles O4: the decoded command is performed once its frame is off the command port. -/
theorem stepRunsDecodedInstruction : Obligations.StepRunsDecodedInstruction :=
  fun _ _ _ hr _ hd => step_of_command hr hd

/-- No command writes the parameters (R7, R8). -/
theorem effect_params {i : Instr} {s t : State} (e : Effect s i t) : t.params = s.params := by
  cases e with
  | answered | digestStarted | digestExtended | digestFinished => rfl
  | keyed | tabled | openedPrimitive | openedHybrid => simp
  | transformed => simp [nextKS_state]

/-! ### What a setup command writes comes from its payload and the parameters alone -/

section
variable (key : List Byte) (st : Status) (out : List Byte) (s : State)

theorem keySteps_repeat : keySteps key ((keySteps key s).emit st out) = (keySteps key s).emit st out := rfl

theorem tableSteps_repeat : tableSteps key ((tableSteps key s).emit st out) = (tableSteps key s).emit st out := rfl

theorem primitiveSteps_repeat :
    primitiveSteps key ((primitiveSteps key s).emit st out) = (primitiveSteps key s).emit st out := rfl

theorem hybridSteps_repeat :
    hybridSteps key ((hybridSteps key s).emit st out) = (hybridSteps key s).emit st out := rfl

theorem startDigest_repeat : (s.startDigest.emit st out).startDigest = s.startDigest.emit st out := rfl

end

/-- The common form of R74: a repeated command is refused by the length check both times, or its second update finds its own
values. -/
theorem guarded_repeat {lenOk lenOk' : Bool} {f : Status} {update : State → State} {s t u : State} (hlen : lenOk = lenOk')
    (hrepeat : update ((update s).emit .ok []) = (update s).emit .ok [])
    (h : guarded lenOk f true (fun s => respond [] (update s)) s = .next t)
    (h' : guarded lenOk' f true (fun s => respond [] (update s)) t = .next u) : u = { t with respOut := u.respOut } := by
  subst hlen
  cases lenOk with
  | false =>
    obtain rfl : t.emit f [] = u := by simpa [guarded, raise_eq] using h'
    rfl
  | true =>
    obtain rfl : (update s).emit .ok [] = t := by simpa [guarded, respond_eq] using h
    obtain rfl : ((update s).emit .ok []).emit .ok [] = u := by simpa [guarded, respond_eq, hrepeat] using h'
    rfl

/-- Settles O46: each setup command is a length check, which reads the parameters at most, and an update that is the same made
twice. -/
theorem setupCommandsIdempotent : Obligations.SetupCommandsIdempotent := by
  intro i s t u inp hi h h'
  have hparams : s.params = t.params := (effect_params (exec_effect h)).symm
  simp only [List.mem_cons, List.not_mem_nil, or_false] at hi
  obtain rfl | rfl | rfl | rfl | rfl | rfl := hi
  · -- KEYINIT
    rw [exec_keyinit] at h h'
    exact guarded_repeat rfl (keySteps_repeat inp .ok [] s) h h'
  · -- NSINIT
    rw [exec_nsinit] at h h'
    exact guarded_repeat (lenFits_congr hparams inp) (tableSteps_repeat inp .ok [] s) h h'
  · -- AINIT.P
    rw [exec_ainitP] at h h'
    exact guarded_repeat rfl (primitiveSteps_repeat inp .ok [] s) h h'
  · -- AINIT.H
    rw [exec_ainitH] at h h'
    exact guarded_repeat rfl (hybridSteps_repeat inp .ok [] s) h h'
  · -- AINIT.H2
    rw [exec_ainitH2] at h h'
    exact guarded_repeat rfl (hybridSteps_repeat inp .ok [] s) h h'
  · -- HINIT
    rw [exec_hinit_startDigest] at h h'
    exact guarded_repeat rfl (startDigest_repeat .ok [] s) h h'

end Sys2Proof.Machine
end

section
/-! PROOF. Frames and commands (30_encoding R80 to R90): decoding and encoding undo each other. -/

namespace Sys2Proof

open Machine

/-! ### What the decoder answers -/

theorem decode_of_no_frame {bytes : List Byte} (h : takeFrame bytes = none) : decode bytes = .incomplete := by
  simp [decode, h]

theorem decode_of_illegal_frame {bytes inp rest : List Byte} {cw : Word} (h : takeFrame bytes = some (cw, inp, rest))
    (hc : decodeCommand cw inp = none) : decode bytes = .illegal rest := by
  simp [decode, h, hc]

theorem decode_of_command_frame {bytes inp rest : List Byte} {cw : Word} {i : Instr}
    (h : takeFrame bytes = some (cw, inp, rest)) (hc : decodeCommand cw inp = some i) : decode bytes = .command i rest := by
  simp [decode, h, hc]

/-- A command is decoded from the first frame only (R89). -/
theorem frame_of_decode_command {bytes rest : List Byte} {i : Instr} (h : decode bytes = .command i rest) :
    ∃ cw inp, takeFrame bytes = some (cw, inp, rest) ∧ decodeCommand cw inp = some i := by
  cases hf : takeFrame bytes with
  | none => simp [decode_of_no_frame hf] at h
  | some frame =>
    obtain ⟨cw, inp, rest'⟩ := frame
    cases hc : decodeCommand cw inp with
    | none => simp [decode_of_illegal_frame hf hc] at h
    | some j =>
      obtain ⟨rfl, rfl⟩ : j = i ∧ rest' = rest := by simpa [decode_of_command_frame hf hc] using h
      exact ⟨cw, inp, rfl, hc⟩

/-! ### A command's own frame -/

/-- The family `Encoding` as one statement: every command word names its row of the opcode map (R87) and carries its payload
length (R82). -/
theorem encoding_statement (i : Instr) : Laws.Encoding.Statement i := by
  cases i with
  | keyinit inp => exact Laws.Encoding.keyinit inp
  | encblk inp => exact Laws.Encoding.encblk inp
  | decblk inp => exact Laws.Encoding.decblk inp
  | nsinit inp => exact Laws.Encoding.nsinit inp
  | scramble inp => exact Laws.Encoding.scramble inp
  | unscramble inp => exact Laws.Encoding.unscramble inp
  | ainitP inp => exact Laws.Encoding.ainitP inp
  | ainitH inp => exact Laws.Encoding.ainitH inp
  | ainitH2 inp => exact Laws.Encoding.ainitH2 inp
  | xform inp => exact Laws.Encoding.xform inp
  | hinit inp => exact Laws.Encoding.hinit inp
  | hupdate inp => exact Laws.Encoding.hupdate inp
  | hfinal inp => exact Laws.Encoding.hfinal inp

/-- Taking the frame that a command word and its payload make (R80). -/
theorem takeFrame_bytesLe32 {cw : Word} {inp : List Byte} (rest : List Byte) (h : inp.length = lenField cw) :
    takeFrame (bytesLe32 cw ++ inp ++ rest) = some (cw, inp, rest) := by
  have hcw := le32_bytesLe32 cw
  have hframe := takeFrame_append (cw.extractLsb' 0 8) (cw.extractLsb' 8 8) (cw.extractLsb' 16 8) (cw.extractLsb' 24 8) inp rest
    (hcw.symm ▸ h)
  rw [hcw] at hframe
  simpa [bytesLe32] using hframe

/-- A word that decodes to a command is that command's word, if its LEN field counts the payload (R81). -/
theorem commandWord_of_decodeCommand {cw : Word} {inp : List Byte} {i : Instr} (hlen : inp.length = lenField cw)
    (h : decodeCommand cw inp = some i) : commandWord i = cw := by
  obtain ⟨hmatch, hpayload⟩ := decodeCommand_eq_some h
  have hlenBits : BitVec.ofNat 17 i.payload.length = cw.extractLsb' 0 17 := by
    rw [hpayload, hlen, lenField, BitVec.ofNat_toNat, BitVec.setWidth_eq]
  rw [commandWord, hmatch, hlenBits, masked_with_len]

/-- Settles O1: the frame is taken whole, and its command word names the command's row. -/
theorem encodeThenDecode : Obligations.EncodeThenDecode := by
  intro i rest hwf
  obtain ⟨hcommand, hlen⟩ := encoding_statement i hwf
  exact decode_of_command_frame (takeFrame_bytesLe32 rest hlen.symm) hcommand

/-- Settles O2: the frame taken is put together again from its command word and payload, which are the command's. -/
theorem decodeThenEncode : Obligations.DecodeThenEncode := by
  intro bytes i rest h
  obtain ⟨cw, inp, hframe, hcommand⟩ := frame_of_decode_command h
  obtain ⟨hlen, hbytes⟩ := takeFrame_eq_some hframe
  obtain ⟨-, hpayload⟩ := decodeCommand_eq_some hcommand
  constructor
  · rw [wellFormed_iff, hpayload, hlen]
    exact Nat.le_of_lt_succ (lenField_lt cw)
  · rw [hbytes, encode, commandWord_of_decodeCommand hlen hcommand, hpayload]

/-- Settles O5: the four legal frames are those of `encode`; the last word, 0x7f000003, is in no row. -/
theorem wordsDecodeAsListed : Obligations.WordsDecodeAsListed :=
  ⟨encodeThenDecode (.keyinit [0, 1, 2, 3, 4, 5, 6, 7, 8, 9, 10, 11, 12, 13, 14, 15]) [] rfl,
    encodeThenDecode (.scramble [0xde, 0xad, 0xbe, 0xef]) [] rfl,
    encodeThenDecode (.ainitH2 [0, 1, 2, 3, 4, 5, 6, 7, 8, 9, 10, 11, 12, 13, 14, 15]) [] rfl,
    encodeThenDecode (.hfinal []) [] rfl,
    decode_of_illegal_frame (takeFrame_bytesLe32 (cw := 0x7f000003) (inp := [0xaa, 0xbb, 0xcc]) [] rfl) rfl⟩

end Sys2Proof
end

section
/-! PROOF. Frames the core does not perform: the illegal ones (30_encoding R88) and those that are not whole (60 R267). -/

namespace Sys2Proof

open Machine

/-! ### The fields of a command word -/

theorem getLsbD_of_extractLsb'_eq {n start len : Nat} {a b : BitVec n} (h : a.extractLsb' start len = b.extractLsb' start len)
    {i : Nat} (hlo : start ≤ i) (hhi : i < start + len) : a.getLsbD i = b.getLsbD i := by
  have hbit := congrArg (BitVec.getLsbD · (i - start)) h
  have hlt : i - start < len := by omega
  simpa [BitVec.getLsbD_extractLsb', hlt, Nat.add_sub_cancel' hlo] using hbit

/-- Masking a field that the mask keeps whole does not change it (R87). -/
theorem extractLsb'_masked (cw : Word) {start len : Nat} (hlo : 17 ≤ start) (hhi : start + len ≤ 32) :
    (cw &&& cwMask).extractLsb' start len = cw.extractLsb' start len := by
  apply BitVec.eq_of_getLsbD_eq
  intro i hi
  simp [BitVec.getLsbD_extractLsb', cwMask_high (start + i) (by omega) (by omega)]

/-- A command word has a match value of R87 exactly when its fields OP, RSV1, SEL and RSV0 (R81) are those of the match value. -/
theorem masked_eq_iff_fields {cw c : Word} (hc : c &&& cwMask = c) :
    cw &&& cwMask = c ↔
      cw.extractLsb' 24 8 = c.extractLsb' 24 8 ∧ cw.extractLsb' 20 4 = c.extractLsb' 20 4 ∧
      cw.extractLsb' 18 2 = c.extractLsb' 18 2 ∧ cw.extractLsb' 17 1 = c.extractLsb' 17 1 := by
  constructor
  · rintro rfl
    refine ⟨?_, ?_, ?_, ?_⟩ <;> rw [extractLsb'_masked cw (by decide) (by decide)]
  · rintro ⟨hop, hrsv1, hsel, hrsv0⟩
    rw [← hc]
    apply BitVec.eq_of_getLsbD_eq
    intro i hi
    rw [BitVec.getLsbD_and, BitVec.getLsbD_and]
    by_cases hlow : i < 17
    · simp [cwMask_low i hlow]
    · congr 1
      obtain h | ⟨h, h'⟩ | ⟨h, h'⟩ | h : 24 ≤ i ∨ (20 ≤ i ∧ i < 24) ∨ (18 ≤ i ∧ i < 20) ∨ i = 17 := by omega
      · exact getLsbD_of_extractLsb'_eq hop h (by omega)
      · exact getLsbD_of_extractLsb'_eq hrsv1 h h'
      · exact getLsbD_of_extractLsb'_eq hsel h h'
      · exact getLsbD_of_extractLsb'_eq hrsv0 (by omega) (by omega)

/-- The match values of the opcode map (R87). -/
def matchValues : List Word := opcodeMap.map Prod.fst

theorem matchValues_masked : ∀ c ∈ matchValues, c &&& cwMask = c := by
  simp [matchValues, opcodeMap, cwMask]

theorem decodeCommand_of_notMem {cw : Word} (inp : List Byte) (h : cw &&& cwMask ∉ matchValues) :
    decodeCommand cw inp = none :=
  decodeCommand_eq_none.mpr fun _ hrow heq => h (heq ▸ List.mem_map_of_mem hrow)

/-- The legal command words by field (R87): the reserved fields are zero, and SEL is zero but for the selectors 1 and 2 of AINIT. -/
theorem mem_matchValues_iff_fields (cw : Word) :
    cw &&& cwMask ∈ matchValues ↔
      ((cw.extractLsb' 18 2 = 0#2 ∧
          cw.extractLsb' 24 8 ∈
            [0x01#8, 0x02#8, 0x03#8, 0x10#8, 0x11#8, 0x12#8, 0x20#8, 0x21#8, 0x30#8, 0x31#8, 0x32#8]) ∨
        (cw.extractLsb' 24 8 = 0x20#8 ∧ (cw.extractLsb' 18 2 = 1#2 ∨ cw.extractLsb' 18 2 = 2#2))) ∧
      cw.extractLsb' 20 4 = 0#4 ∧ cw.extractLsb' 17 1 = 0#1 := by
  have hfields : cw &&& cwMask ∈ matchValues ↔ ∃ c ∈ matchValues,
      cw.extractLsb' 24 8 = c.extractLsb' 24 8 ∧ cw.extractLsb' 20 4 = c.extractLsb' 20 4 ∧
      cw.extractLsb' 18 2 = c.extractLsb' 18 2 ∧ cw.extractLsb' 17 1 = c.extractLsb' 17 1 :=
    exists_eq_right'.symm.trans <|
      exists_congr fun c => and_congr_right fun hc => masked_eq_iff_fields (matchValues_masked c hc)
  rw [hfields]
  generalize cw.extractLsb' 24 8 = op, cw.extractLsb' 20 4 = rsv1, cw.extractLsb' 18 2 = sel, cw.extractLsb' 17 1 = rsv0
  simp only [matchValues, opcodeMap, List.map_cons, List.map_nil, List.exists_mem_cons_iff]
  by_cases hrsv : rsv1 = 0#4 ∧ rsv0 = 0#1
  · obtain ⟨rfl, rfl⟩ := hrsv
    by_cases hsel : sel = 0#2
    · simp [hsel]
    · simp [hsel, and_or_left]
  · obtain h | h := not_and_or.mp hrsv <;> simp [h]

/-- A command word is illegal (R88) exactly when a reserved field is set, or OP is in no row, or SEL does not fit OP. -/
theorem notMem_matchValues_iff_fields (cw : Word) :
    cw &&& cwMask ∉ matchValues ↔
      cw.extractLsb' 24 8 ∉ [0x01#8, 0x02#8, 0x03#8, 0x10#8, 0x11#8, 0x12#8, 0x20#8, 0x21#8, 0x30#8, 0x31#8, 0x32#8] ∨
      cw.extractLsb' 20 4 ≠ 0#4 ∨ cw.extractLsb' 17 1 ≠ 0#1 ∨
      (cw.extractLsb' 18 2 ≠ 0#2 ∧ cw.extractLsb' 24 8 ≠ 0x20#8) ∨
      (cw.extractLsb' 18 2 = 3#2 ∧ cw.extractLsb' 24 8 = 0x20#8) := by
  rw [mem_matchValues_iff_fields]
  generalize cw.extractLsb' 24 8 = op, cw.extractLsb' 20 4 = rsv1, cw.extractLsb' 18 2 = sel, cw.extractLsb' 17 1 = rsv0
  have hsel : sel = 0#2 ∨ sel = 1#2 ∨ sel = 2#2 ∨ sel = 3#2 := by
    revert sel; decide
  by_cases hop : op = 0x20#8
  · subst hop
    obtain rfl | rfl | rfl | rfl := hsel <;> simp [imp_iff_not_or]
  · obtain rfl | rfl | rfl | rfl := hsel <;> simp [hop, imp_iff_not_or]

/-- Settles O3: the map's rows in the fields of the command word, and the step that takes a frame outside the map. -/
theorem illegalCommandsAreAnswered : Obligations.IllegalCommandsAreAnswered := by
  refine ⟨notMem_matchValues_iff_fields, fun s b0 b1 b2 b3 inp rest hreset hstream hillegal hlen => ?_⟩
  have hdecode : decode s.cmdIn = .illegal rest := by
    rw [hstream]
    exact decode_of_illegal_frame (takeFrame_append b0 b1 b2 b3 inp rest hlen) (decodeCommand_of_notMem inp hillegal)
  rw [step_of_illegal hreset hdecode, emit_nil]
  rfl

/-- Settles O6: the two ways a stream holds no whole frame are those of `takeFrame_eq_none`. -/
theorem waitsForWholeFrame : Obligations.WaitsForWholeFrame :=
  fun _ hreset hshort => step_of_incomplete hreset (decode_of_no_frame (takeFrame_eq_none.mpr hshort))

end Sys2Proof
end

section
/-! PROOF. Responses (30_encoding R85, R86, R92): the bytes of a response frame, and when a command answers NotInitialised. -/

namespace Sys2Proof.Machine

/-! ### The response word -/

/-- The response word as a number (R85). -/
theorem responseWord_toNat (st : Status) {n : Nat} (h : n < 2 ^ 17) :
    (responseWord st n).toNat = 2 ^ 24 * st.code.toNat + n := by
  have hshift : 2 ^ 24 * st.code.toNat = st.code.toNat <<< 7 <<< 17 := by
    simp only [Nat.shiftLeft_eq]; omega
  simp only [responseWord, BitVec.toNat_append, BitVec.toNat_ofNat, Nat.mod_eq_of_lt h, Nat.zero_mod, Nat.or_zero]
  rw [hshift, Nat.shiftLeft_add_eq_or_of_lt h]

/-- The three low bytes of the response word are those of RLEN (R85). -/
theorem responseWord_lengthByte (st : Status) {n k : Nat} (h : n < 2 ^ 17) (hk : k = 0 ∨ k = 8 ∨ k = 16) :
    (responseWord st n).extractLsb' k 8 = BitVec.ofNat 8 (n / 2 ^ k) := by
  rw [extractByte_eq_ofNat, responseWord_toNat st h]
  apply BitVec.eq_of_toNat_eq
  rw [BitVec.toNat_ofNat, BitVec.toNat_ofNat]
  obtain rfl | rfl | rfl := hk <;> omega

/-- Settles O7: the three low bytes are the length's, the fourth is the status code. -/
theorem responseFrameBytes : Obligations.ResponseFrameBytes := by
  intro st out hlen
  have hn : out.length < 2 ^ 17 := Nat.lt_succ_of_le hlen
  have hstatus : (responseWord st out.length).extractLsb' 24 8 = st.code := responseFrame_status st out
  rw [responseFrame, bytesLe32, responseWord_lengthByte st hn (.inl rfl), responseWord_lengthByte st hn (.inr (.inl rfl)),
    responseWord_lengthByte st hn (.inr (.inr rfl)), hstatus]
  cases st <;> simp [Status.code]

/-! ### NotInitialised -/

/-- The response that leads from `s` to `t` carries the status `st`. -/
def AnswersWith (st : Status) (s t : State) : Prop := ∃ out, t.respOut = s.respOut ++ responseFrame st out

theorem answersWith_emit {s u : State} (hu : u.respOut = s.respOut) (st a : Status) (out : List Byte) :
    AnswersWith st s (u.emit a out) ↔ a = st :=
  status_of_answer (out := out) (by rw [State.emit_respOut, hu])

/-- A fault is answered by the first check of R90 that fails, where the command performed does not answer it. -/
theorem answersWith_guarded_iff {lenOk ready : Bool} {f st : Status} {perform : State → Result} {s t : State}
    (h : guarded lenOk f ready perform s = .next t) (hperform : perform s = .next t → ¬ AnswersWith st s t) :
    AnswersWith st s t ↔ (lenOk = false ∧ f = st) ∨ (lenOk = true ∧ ready = false ∧ Status.notInitialised = st) := by
  obtain ⟨rfl, rfl⟩ | ⟨rfl, rfl, rfl⟩ | ⟨rfl, rfl, hp⟩ := guarded_cases h
  · simp [answersWith_emit]
  · simp [answersWith_emit]
  · simp [hperform hp]

/-- The faults of a command that ends with OK once its checks have passed. -/
theorem answersFault_iff_of_respond {lenOk ready : Bool} {f st : Status} {out : State → List Byte} {update : State → State}
    {s t : State} (hst : st ≠ .ok) (hport : (update s).respOut = s.respOut)
    (h : guarded lenOk f ready (fun s => respond (out s) (update s)) s = .next t) :
    AnswersWith st s t ↔ (lenOk = false ∧ f = st) ∨ (lenOk = true ∧ ready = false ∧ Status.notInitialised = st) := by
  refine answersWith_guarded_iff h fun hp => ?_
  obtain rfl : (update s).emit .ok (out s) = t := by simpa [respond_eq] using hp
  simp [answersWith_emit hport, hst.symm]

/-- Past its first two checks HUPDATE answers LengthError or OK (R202, R209). -/
theorem not_answersNotInitialised_of_updateSteps {inp : List Byte} {s t : State} (h : updateSteps inp s = .next t) :
    ¬ AnswersWith .notInitialised s t := by
  obtain ⟨-, rfl⟩ | ⟨-, rfl⟩ := updateSteps_cases h
  · simp [answersWith_emit]
  · exact mt (answersWith_emit (u := s.extendDigest inp) rfl _ _ _).mp nofun

/-- Settles O12: a command's checks are `guarded`, and what they guard never answers NotInitialised; the commands without a state
precondition are always ready. -/
theorem notInitialisedIsMissingState : Obligations.NotInitialisedIsMissingState := by
  intro i s t h
  change AnswersWith .notInitialised s t ↔ _
  cases i with
  | keyinit inp =>
    rw [exec_keyinit] at h
    simpa using answersFault_iff_of_respond (st := .notInitialised) nofun rfl h
  | encblk inp =>
    rw [exec_encblk] at h
    simpa using answersFault_iff_of_respond (st := .notInitialised) nofun rfl h
  | decblk inp =>
    rw [exec_decblk] at h
    simpa using answersFault_iff_of_respond (st := .notInitialised) nofun rfl h
  | nsinit inp =>
    rw [exec_nsinit] at h
    simpa using answersFault_iff_of_respond (st := .notInitialised) nofun rfl h
  | scramble inp =>
    rw [exec_scramble] at h
    simpa using answersFault_iff_of_respond (st := .notInitialised) nofun rfl h
  | unscramble inp =>
    rw [exec_unscramble] at h
    simpa using answersFault_iff_of_respond (st := .notInitialised) nofun rfl h
  | ainitP inp =>
    rw [exec_ainitP] at h
    simpa using answersFault_iff_of_respond (st := .notInitialised) nofun rfl h
  | ainitH inp =>
    rw [exec_ainitH] at h
    simpa using answersFault_iff_of_respond (st := .notInitialised) nofun rfl h
  | ainitH2 inp =>
    rw [exec_ainitH2] at h
    simpa using answersFault_iff_of_respond (st := .notInitialised) nofun rfl h
  | xform inp =>
    have hport : (s.nextKS inp.length).2.respOut = s.respOut := by rw [nextKS_state]
    rw [exec_xform] at h
    simpa using answersFault_iff_of_respond (st := .notInitialised) nofun hport h
  | hinit inp =>
    rw [exec_hinit_startDigest] at h
    simpa using answersFault_iff_of_respond (st := .notInitialised) nofun rfl h
  | hupdate inp =>
    rw [exec_hupdate] at h
    simpa using answersWith_guarded_iff h not_answersNotInitialised_of_updateSteps
  | hfinal inp =>
    rw [exec_hfinal] at h
    simpa using answersFault_iff_of_respond (st := .notInitialised) (update := State.closeDigest) nofun rfl h

end Sys2Proof.Machine
end

section
/-! PROOF. The key schedule (40_key_schedule R113 to R116): the key words, the table before mixing, the mixing loop as sequences,
and KEYINIT. -/

namespace Sys2Proof.Machine

/-! ### Key words -/

/-- Appending a byte below a number's bits (R12). -/
theorem append_byte_toNat {n : Nat} (x : BitVec n) (b : Byte) : (x ++ b).toNat = 2 ^ 8 * x.toNat + b.toNat := by
  rw [BitVec.toNat_append, ← Nat.shiftLeft_add_eq_or_of_lt b.isLt, Nat.shiftLeft_eq, Nat.mul_comm]

/-- A little-endian word as a number (R12). -/
theorem le32_toNat (b0 b1 b2 b3 : Byte) :
    (le32 b0 b1 b2 b3).toNat = b0.toNat + 2 ^ 8 * b1.toNat + 2 ^ 16 * b2.toNat + 2 ^ 24 * b3.toNat := by
  simp only [le32, append_byte_toNat]
  omega

/-! ### The table before mixing -/

/-- Reading a vector with a default, at an index it has. -/
theorem vector_getD_of_lt {α : Type} {n i : Nat} (v : Vector α n) (d : α) (h : i < n) : v.getD i d = v[i] := by
  simp [Vector.getD, h]

/-- Reading a vector with a default, past its end. -/
theorem vector_getD_of_ge {α : Type} {n i : Nat} (v : Vector α n) (d : α) (h : n ≤ i) : v.getD i d = d := by
  simp [Vector.getD, h]

/-- The table filled up to index `n` holds the multiples of `Q32` above `P32` up to there (R113). -/
theorem fillTable_getElem (P32 Q32 : Word) {n i : Nat} (hi : i ≤ n) (hn : n < 44) :
    (fillTable P32 Q32 n)[i] = P32 + BitVec.ofNat 32 i * Q32 := by
  induction n generalizing i with
  | zero =>
    obtain rfl : i = 0 := Nat.le_zero.mp hi
    simp [fillTable]
  | succ n ih =>
    have hfilled {k : Nat} (hk : k ≤ n) := ih hk (by omega)
    simp only [fillTable, Vector.getElem_setIfInBounds]
    split
    case isTrue heq =>
      rw [vector_getD_of_lt _ _ (by omega), hfilled (Nat.le_refl n), ← heq, BitVec.ofNat_add, BitVec.add_mul, BitVec.add_assoc]
      simp
    case isFalse hne => exact hfilled (by omega)

/-- Settles O15: `le32_toNat` for the key words, `fillTable_getElem` for the table. -/
theorem keyScheduleStart : Obligations.KeyScheduleStart := by
  intro P32 Q32 key _
  constructor
  · intro j
    simp [mixStart, keyWords, le32_toNat]
  · intro i
    have hfilled := fillTable_getElem P32 Q32 (Nat.le_of_lt_succ i.isLt) (by decide)
    simp [mixStart, hfilled]

/-! ### The mixing loop -/

/-- A vector written at one index, read with a default. -/
theorem vector_getD_set {α : Type} {n k : Nat} (v : Vector α n) (x d : α) (hk : k < n) (i : Nat) :
    (v.set k x hk).getD i d = if i = k then x else v.getD i d := by
  by_cases hi : i < n
  · simp [vector_getD_of_lt, hi, Vector.getElem_set, eq_comm]
  · have hne : i ≠ k := by omega
    simp [vector_getD_of_ge _ _ (Nat.le_of_not_lt hi), hne]

/-- The mixing loop after `k` turns (R114). -/
def mixingAt (P32 Q32 : Word) (key : List Byte) (k : Nat) : Mixing := mixTurns k (mixStart P32 Q32 key)

theorem keySchedule_eq_mixingAt (P32 Q32 : Word) (key : List Byte) :
    keySchedule P32 Q32 key = (mixingAt P32 Q32 key 132).T := by
  unfold keySchedule mixingAt
  rfl

theorem mixingAt_succ (P32 Q32 : Word) (key : List Byte) (k : Nat) :
    mixingAt P32 Q32 key (k + 1) = mixStep (mixingAt P32 Q32 key k) :=
  mixTurns_succ k (mixStart P32 Q32 key)

theorem mixingAt_indices (P32 Q32 : Word) (key : List Byte) (k : Nat) :
    (mixingAt P32 Q32 key k).i.val = k % 44 ∧ (mixingAt P32 Q32 key k).j.val = k % 4 := mixTurns_indices k _ rfl rfl

/-- One turn, its indices as numbers and its reads with a default (R114). -/
theorem mixStep_words (m : Mixing) :
    (mixStep m).A = rotl32 (m.T.getD m.i.val 0 + m.A + m.B) 3 ∧
    (mixStep m).B = rotl32 (m.L.getD m.j.val 0 + (mixStep m).A + m.B) (((mixStep m).A + m.B).toNat % 32) ∧
    (∀ i, (mixStep m).T.getD i 0 = if i = m.i.val then (mixStep m).A else m.T.getD i 0) ∧
    (∀ j, (mixStep m).L.getD j 0 = if j = m.j.val then (mixStep m).B else m.L.getD j 0) := by
  rw [vector_getD_of_lt m.T 0 m.i.isLt, vector_getD_of_lt m.L 0 m.j.isLt, ← rotAmount_eq]
  exact ⟨rfl, rfl, vector_getD_set m.T _ 0 m.i.isLt, vector_getD_set m.L _ 0 m.j.isLt⟩

/-- Settles O16: the sequences are the locals of the loop after `k` turns. -/
theorem keyScheduleMixing : Obligations.KeyScheduleMixing := by
  intro P32 Q32 key
  let m := mixingAt P32 Q32 key
  refine ⟨fun k i => (m k).T.getD i 0, fun k j => (m k).L.getD j 0, fun k => (m k).A, fun k => (m k).B,
    ?table, ?keyWords, rfl, rfl, ?turn, ?schedule⟩
  case table => exact fun i => vector_getD_of_lt _ _ i.isLt
  case keyWords => exact fun j => vector_getD_of_lt _ _ j.isLt
  case turn =>
    intro k _
    obtain ⟨hi, hj⟩ := mixingAt_indices P32 Q32 key k
    have hturn := mixStep_words (m k)
    rwa [← mixingAt_succ, hi, hj] at hturn
  case schedule =>
    intro i
    rw [keySchedule_eq_mixingAt]
    exact (vector_getD_of_lt _ _ i.isLt).symm

/-! ### KEYINIT -/

/-- The response frame of a command that ends with OK and an empty payload (R85, R86). -/
theorem responseFrame_ok_nil : responseFrame .ok [] = [0x00, 0x00, 0x00, 0x00] := by decide

/-- Settles O14: the length check passes, and KEYINIT has no other. -/
theorem keyinitBuildsSchedule : Obligations.KeyinitBuildsSchedule := by
  intro s key hlen
  rw [exec_keyinit, lenIsBlock_eq_true.mpr hlen, guarded_of_ready, respond_eq, keySteps_eq, State.emit, responseFrame_ok_nil]
  rfl

end Sys2Proof.Machine
end

section
/-! PROOF. The block cipher (41_block_cipher R130 to R138): blocks as words, the encryption as sequences, encryption and decryption
as inverses, ENCBLK and DECBLK. -/

namespace Sys2Proof.Machine

/-! ### Blocks as words -/

/-- Settles O21: `le32` and the bytes of `join` are those R130 lists, and `join_split` is the round trip. -/
theorem blockWordsRoundTrip : Obligations.BlockWordsRoundTrip := ⟨fun _ => rfl, join_toList, join_split⟩

/-! ### Encryption as sequences -/

/-- The words before round 1 of the encryption (R132). -/
def encStart (S : Vector Word 44) (w : Words) : Words := { w with B := w.B + S[0], D := w.D + S[1] }

/-- The words after the last round of the encryption made the ciphertext's (R132). -/
def encFinish (S : Vector Word 44) (w : Words) : Words := { w with A := w.A + S[42], C := w.C + S[43] }

theorem encWords_eq (S : Vector Word 44) (w : Words) : encWords S w = encFinish S (encRounds S 20 (encStart S w)) := by
  simp only [encWords, encStart, encFinish, subkey, vector_getD_of_lt, Nat.reduceLT]

/-- The four registers after round `i` of a block's encryption (R132). -/
def encAt (S : Vector Word 44) (X : Vector Byte 16) (i : Nat) : Words := encRounds S i (encStart S (split X))

theorem encAt_of_pos (S : Vector Word 44) (X : Vector Byte 16) {i : Nat} (hi : 1 ≤ i) :
    encAt S X i = encRound S i (encAt S X (i - 1)) := by
  obtain ⟨n, rfl⟩ := Nat.exists_eq_add_of_le' hi
  rfl

theorem encBlock_toList (S : Vector Word 44) (X : Vector Byte 16) :
    (encBlock S X).toList = joinBytes (encFinish S (encAt S X 20)) := by
  rw [encBlock, join_toList, encWords_eq, encAt]

/-- One round, register by register, the rotation amounts as remainders (R132, R136). -/
theorem encRound_words (S : Vector Word 44) (i : Nat) (w : Words) :
    (encRound S i w).A = w.B ∧
    (encRound S i w).B = rotl32 (w.C ^^^ roundTerm w.D) ((roundTerm w.B).toNat % 32) + S.getD (2 * i + 1) 0 ∧
    (encRound S i w).C = w.D ∧
    (encRound S i w).D = rotl32 (w.A ^^^ roundTerm w.B) ((roundTerm w.D).toNat % 32) + S.getD (2 * i) 0 := by
  rw [← rotAmount_eq, ← rotAmount_eq]
  exact ⟨rfl, rfl, rfl, rfl⟩

/-- Settles O19: the sequences are the registers after `i` rounds, and the round terms of `B` and `D` before round `i`. -/
theorem encryptionRounds : Obligations.EncryptionRounds := by
  intro S X
  let w := encAt S X
  refine ⟨fun i => (w i).A, fun i => (w i).B, fun i => (w i).C, fun i => (w i).D,
    fun i => roundTerm (w (i - 1)).B, fun i => roundTerm (w (i - 1)).D, rfl, rfl, rfl, rfl, ?round, encBlock_toList S X⟩
  case round =>
    intro i hi _
    have hwords := encRound_words S i (w (i - 1))
    rw [← encAt_of_pos S X hi] at hwords
    exact ⟨rfl, rfl, hwords⟩

/-! ### Encryption and decryption are inverse -/

/-- The words before round 20 of the decryption (R135). -/
def decStart (S : Vector Word 44) (w : Words) : Words := { w with C := w.C - S[43], A := w.A - S[42] }

/-- The words after the last round of the decryption made the plaintext's (R135). -/
def decFinish (S : Vector Word 44) (w : Words) : Words := { w with D := w.D - S[1], B := w.B - S[0] }

theorem decWords_eq (S : Vector Word 44) (w : Words) : decWords S w = decFinish S (decRounds S 20 (decStart S w)) := by
  simp only [decWords, decStart, decFinish, subkey, vector_getD_of_lt, Nat.reduceLT]

theorem decStart_encFinish (S : Vector Word 44) (w : Words) : decStart S (encFinish S w) = w := by
  simp [decStart, encFinish]

theorem encFinish_decStart (S : Vector Word 44) (w : Words) : encFinish S (decStart S w) = w := by
  simp [decStart, encFinish]

theorem decFinish_encStart (S : Vector Word 44) (w : Words) : decFinish S (encStart S w) = w := by
  simp [decFinish, encStart]

theorem encStart_decFinish (S : Vector Word 44) (w : Words) : encStart S (decFinish S w) = w := by
  simp [decFinish, encStart]

/-- The decryption takes the rounds back from the last to the first (R135). -/
theorem decRounds_encRounds (S : Vector Word 44) (n : Nat) (w : Words) : decRounds S n (encRounds S n w) = w := by
  induction n with
  | zero => rfl
  | succ n ih => rw [encRounds, decRounds, decRound_encRound, ih]

/-- The encryption makes the rounds again from the first to the last (R132). -/
theorem encRounds_decRounds (S : Vector Word 44) (n : Nat) (w : Words) : encRounds S n (decRounds S n w) = w := by
  induction n generalizing w with
  | zero => rfl
  | succ n ih => rw [decRounds, encRounds, ih, encRound_decRound]

theorem decWords_encWords (S : Vector Word 44) (w : Words) : decWords S (encWords S w) = w := by
  rw [encWords_eq, decWords_eq, decStart_encFinish, decRounds_encRounds, decFinish_encStart]

theorem encWords_decWords (S : Vector Word 44) (w : Words) : encWords S (decWords S w) = w := by
  rw [decWords_eq, encWords_eq, encStart_decFinish, encRounds_decRounds, encFinish_decStart]

/-- Settles O20: on the words the two transforms undo each other, and `split` and `join` do. -/
theorem decryptionInvertsEncryption : Obligations.DecryptionInvertsEncryption := by
  intro S X
  constructor
  · rw [decBlock, encBlock, split_join, decWords_encWords, join_split]
  · rw [encBlock, decBlock, split_join, encWords_decWords, join_split]

/-! ### ENCBLK and DECBLK -/

/-- The response frame of a command that ends with OK and one block (R85, R86). -/
theorem responseFrame_ok_block (Y : Vector Byte 16) : responseFrame .ok Y.toList = [0x10, 0x00, 0x00, 0x00] ++ Y.toList := by
  have hword : bytesLe32 (responseWord .ok 16) = [0x10, 0x00, 0x00, 0x00] := by decide
  rw [responseFrame, Vector.length_toList, hword]

/-- A command on one block, once ready, answers OK with the block it makes, and writes no state (R90, R140). -/
theorem guarded_respond_block (f : State → Vector Byte 16) {s : State} {inp : List Byte} {ready : Bool}
    (hlen : inp.length = 16) (hready : ready = true) :
    guarded (lenIsBlock inp) .lengthError ready (fun s => respond (f s).toList s) s =
      .next { s with respOut := s.respOut ++ ([0x10, 0x00, 0x00, 0x00] ++ (f s).toList) } := by
  rw [lenIsBlock_eq_true.mpr hlen, hready, guarded_of_ready, respond_eq, State.emit, responseFrame_ok_block]

/-- Settles O17: ENCBLK is a command on one block. -/
theorem encblkReturnsCiphertext : Obligations.EncblkReturnsCiphertext :=
  fun s inp hlen hK => (exec_encblk inp s).trans (guarded_respond_block (fun s => encBlock s.S (blockOf inp)) hlen hK)

/-- Settles O18: DECBLK is a command on one block. -/
theorem decblkReturnsPlaintext : Obligations.DecblkReturnsPlaintext :=
  fun s inp hlen hK => (exec_decblk inp s).trans (guarded_respond_block (fun s => decBlock s.S (blockOf inp)) hlen hK)

end Sys2Proof.Machine
end

section
/-! PROOF. NSINIT (42_nibble_scrambler R151 to R155): the table is a bijection, follows the first occurrences in the scan, and
does not change once every value has been seen. -/

namespace Sys2Proof.Machine

/-! ### The table as a bijection -/

/-- Settles O24: `isTable_of_key`, which speaks of the entries as numbers. -/
theorem tableIsBijection : Obligations.TableIsBijection := by
  intro key
  obtain ⟨hcell, hvalue⟩ := isTable_of_key key
  constructor
  · exact fun k => BitVec.eq_of_toNat_eq (by simpa using hcell k)
  · exact fun v => BitVec.eq_of_toNat_eq (by simpa using hvalue v)

/-! ### The order of the cells -/

theorem idxOf_concat (L : List Nibble) (x w : Nibble) :
    (L ++ [x]).idxOf w = if w ∈ L then L.idxOf w else if w = x then L.length else L.length + 1 := by
  rw [List.idxOf_append]
  by_cases hwx : w = x
  case pos => simp [hwx]
  case neg => simp [hwx, List.idxOf_of_notMem, Nat.add_comm]

/-- Which of two values comes first in a list, after one more value: a value that is new comes before those still missing. -/
theorem idxOf_concat_lt_iff (L : List Nibble) (x u v : Nibble) :
    (L ++ [x]).idxOf u < (L ++ [x]).idxOf v ↔ L.idxOf u < L.idxOf v ∨ (x ∉ L ∧ u = x ∧ v ∉ L ∧ v ≠ x) := by
  have hmem {w : Nibble} (hw : w ∈ L) : L.idxOf w < L.length := List.idxOf_lt_length_of_mem hw
  rw [idxOf_concat, idxOf_concat]
  by_cases hu : u ∈ L
  case pos =>
    have hbound := hmem hu
    by_cases hv : v ∈ L
    case pos => simp [hu, hv]
    case neg =>
      simp only [hu, hv, if_true, if_false, List.idxOf_of_notMem hv, hbound, true_or, iff_true]
      split <;> omega
  case neg =>
    by_cases hv : v ∈ L
    case pos =>
      have hbound := hmem hv
      simp only [hu, hv, if_true, if_false, List.idxOf_of_notMem hu, not_true, false_and, and_false, or_false]
      split <;> omega
    case neg =>
      by_cases hux : u = x
      case pos => by_cases hvx : v = x <;> simp [hux ▸ hu, hv, hux, hvx]
      case neg => simp [hu, hv, hux]; split <;> omega

theorem mem_foldl_seeNibble {L : List Nibble} {u : Nibble} : u ∈ L.foldl seeNibble [] ↔ u ∈ L := by
  simpa using (scan_spec L [] List.nodup_nil).2 u

/-- A scan lists the values in the order of their first occurrences (R152). -/
theorem idxOf_foldl_seeNibble_lt_iff (L : List Nibble) (u v : Nibble) :
    (L.foldl seeNibble []).idxOf u < (L.foldl seeNibble []).idxOf v ↔ L.idxOf u < L.idxOf v := by
  induction L using List.reverseRecOn with
  | nil => rfl
  | append_singleton L x ih =>
    rw [List.foldl_concat, idxOf_concat_lt_iff L, seeNibble]
    split
    case isTrue hx => simp [ih, mem_foldl_seeNibble.mp hx]
    case isFalse => simp only [idxOf_concat_lt_iff, ih, mem_foldl_seeNibble]

/-- Settles O25: the cells are the positions in the cell order, which is a scan. -/
theorem tableFollowsFirstOccurrence : Obligations.TableFollowsFirstOccurrence := by
  intro key u v
  rw [Fin.getElem_fin, Fin.getElem_fin, tableV2C_getElem, tableV2C_getElem]
  exact idxOf_foldl_seeNibble_lt_iff (keyNibbles key ++ ascending) _ _

/-! ### Key bytes after all sixteen values -/

theorem mem_keyNibbles {key : List Byte} {v : Nibble} : v ∈ keyNibbles key ↔ ∃ b ∈ key, loNib b = v ∨ hiNib b = v := by
  simp [keyNibbles, eq_comm]

/-- Once every value has been seen the scan goes on without effect (R155 (b)). -/
theorem foldl_seeNibble_of_all_seen {order : List Nibble} (h : ∀ v, v ∈ order) (L : List Nibble) :
    L.foldl seeNibble order = order :=
  List.foldl_fixed' (fun v => if_pos (h v)) L

theorem cellOrder_of_all_seen {key : List Byte} (h : ∀ v, v ∈ keyNibbles key) (more : List Byte) :
    cellOrder (key ++ more) = (keyNibbles key).foldl seeNibble [] := by
  have hsplit : keyNibbles (key ++ more) ++ ascending = keyNibbles key ++ (keyNibbles more ++ ascending) := by
    simp [keyNibbles]
  rw [cellOrder, hsplit, List.foldl_append, foldl_seeNibble_of_all_seen fun v => mem_foldl_seeNibble.mpr (h v)]

/-- Settles O26: the cell order is complete after the nibbles of `X`, whatever follows. -/
theorem keyBytesPastAllNibblesIgnored : Obligations.KeyBytesPastAllNibblesIgnored := by
  intro X Y hall
  have hseen (v : Nibble) : v ∈ keyNibbles X := mem_keyNibbles.mpr (hall v)
  have horder : cellOrder (X ++ Y) = cellOrder X := by
    rw [cellOrder_of_all_seen hseen Y, ← cellOrder_of_all_seen hseen [], List.append_nil]
  simp only [tableC2V, tableV2C, horder, and_self]

/-! ### NSINIT -/

/-- Settles O23: the length check passes, and NSINIT has no other. -/
theorem nsinitBuildsTable : Obligations.NsinitBuildsTable := by
  intro s key hlen
  rw [exec_nsinit, lenFits_eq_true.mpr hlen, guarded_of_ready, respond_eq, tableSteps_eq, State.emit, responseFrame_ok_nil]
  rfl

end Sys2Proof.Machine
end

section
/-! PROOF. SCRAMBLE and UNSCRAMBLE (42_nibble_scrambler R150, R156 to R165): the closed form by nibbles, the bijection on the
buffers of each length, and what the two commands answer. -/

namespace Sys2Proof.Machine

/-! ### The closed form -/

/-- The first half of the combined sequence: the rows (R158). -/
theorem combined_getD_of_lt (V2C : Vector Nibble 16) (x : List Nibble) (q : Nat) (h : q < x.length) :
    (combined V2C x).getD q 0 = rowOf V2C x[q] := by
  simp [combined, h, List.getElem?_append_left]

/-- The second half of the combined sequence: the columns (R158). -/
theorem combined_getD_of_ge (V2C : Vector Nibble 16) (x : List Nibble) (q : Nat) (hge : x.length ≤ q)
    (h : q - x.length < x.length) : (combined V2C x).getD q 0 = colOf V2C x[q - x.length] := by
  simp [combined, h, hge, List.getElem?_append_right]

/-- The passthrough of R159 is never taken (R160). -/
theorem regroup_combined_getElem (C2V V2C : Vector Nibble 16) (x : List Nibble) (q : Nat) (h : q < x.length) :
    (regroup C2V (combined V2C x) x)[q]'(by simpa using h) =
      valAt C2V ((combined V2C x).getD (2 * q) 0) ((combined V2C x).getD (2 * q + 1) 0) := by
  rw [regroup_getElem C2V _ x q h, if_pos (by rw [combined_length]; omega)]

/-- The nibbles of what SCRAMBLE returns, as pairs of the combined sequence (R159, R160). -/
theorem nibbleAt_scr (C2V V2C : Vector Nibble 16) (inp : List Byte) (q : Nat) (h : q < 2 * inp.length) :
    nibbleAt (scr C2V V2C inp) q =
      valAt C2V ((combined V2C (dataNibbles inp)).getD (2 * q) 0) ((combined V2C (dataNibbles inp)).getD (2 * q + 1) 0) := by
  rw [nibbleAt_eq _ q (by simpa using h), ← regroup_combined_getElem C2V V2C _ q (by simpa using h)]
  simp only [dataNibbles_scr]

theorem combined_dataNibbles_row (V2C : Vector Nibble 16) (inp : List Byte) (q : Nat) (h : q < 2 * inp.length) :
    (combined V2C (dataNibbles inp)).getD q 0 = rowOf V2C (nibbleAt inp q) := by
  rw [combined_getD_of_lt V2C _ q (by simpa using h), nibbleAt_eq inp q h]

theorem combined_dataNibbles_col (V2C : Vector Nibble 16) (inp : List Byte) (q : Nat) (h : q < 2 * inp.length) :
    (combined V2C (dataNibbles inp)).getD (2 * inp.length + q) 0 = colOf V2C (nibbleAt inp q) := by
  rw [combined_getD_of_ge V2C _ _ (by simp) (by simpa using h), nibbleAt_eq inp q h]
  simp

/-- Settles O28: both elements of a pair are rows, or both are columns, as the number of nibbles is even. -/
theorem scrambleClosedForm : Obligations.ScrambleClosedForm := by
  intro C2V V2C inp
  refine ⟨scr_length C2V V2C inp, fun q hq => ?_⟩
  rw [nibbleAt_scr C2V V2C inp q hq]
  split
  case isTrue hrows =>
    rw [combined_dataNibbles_row V2C inp _ (by omega), combined_dataNibbles_row V2C inp _ hrows]
  case isFalse hcols =>
    rw [← combined_dataNibbles_col V2C inp _ (by omega), ← combined_dataNibbles_col V2C inp _ (by omega)]
    congr 2 <;> omega

/-! ### The bijection -/

section
variable {C2V V2C : Vector Nibble 16}

/-- `val(row(v), col(v)) = v` (R150). -/
theorem valAt_row_col (h : IsTable C2V V2C) (v : Nibble) : valAt C2V (rowOf V2C v) (colOf V2C v) = v := by
  have hcell : (rowOf V2C v ++ colOf V2C v : Nibble) = V2C[v.toNat] := BitVec.extractLsb'_append_extractLsb'
  simp only [valAt, hcell]
  exact BitVec.eq_of_toNat_eq (h.2 v.toFin)

/-- The cell of the value at row `r` and column `c` (R150). -/
theorem cell_valAt (h : IsTable C2V V2C) (r c : Coord) : V2C[(valAt C2V r c).toNat] = r ++ c :=
  BitVec.eq_of_toNat_eq (h.1 (r ++ c : Nibble).toFin)

theorem rowOf_valAt (h : IsTable C2V V2C) (r c : Coord) : rowOf V2C (valAt C2V r c) = r := by
  rw [rowOf, cell_valAt h, BitVec.extractLsb'_append_eq_left]

theorem colOf_valAt (h : IsTable C2V V2C) (r c : Coord) : colOf V2C (valAt C2V r c) = c := by
  rw [colOf, cell_valAt h, BitVec.extractLsb'_append_eq_right]

/-- The combined sequence can be read off the output nibbles (R164). -/
theorem flatMap_row_col_regroup (h : IsTable C2V V2C) : (comb : List Coord) → (x : List Nibble) →
    comb.length = 2 * x.length → (regroup C2V comb x).flatMap (fun v => [rowOf V2C v, colOf V2C v]) = comb
  | [], [], _ => rfl
  | [_], x, hlen => by simp at hlen; omega
  | r :: c :: comb, _ :: x, hlen => by
    have ih := flatMap_row_col_regroup h comb x (by simp at hlen; omega)
    simp [regroup, rowOf_valAt h, colOf_valAt h, ih]

/-- The nibbles can be read off the two halves of the combined sequence (R164). -/
theorem zipWith_valAt_row_col (h : IsTable C2V V2C) (x : List Nibble) :
    List.zipWith (valAt C2V) (x.map (rowOf V2C)) (x.map (colOf V2C)) = x := by
  simp [List.zipWith_map, List.zipWith_self, valAt_row_col h]

/-- The combined sequence determines the nibbles (R164). -/
theorem combined_injective (h : IsTable C2V V2C) {x x' : List Nibble} (hlen : x.length = x'.length)
    (heq : combined V2C x = combined V2C x') : x = x' := by
  obtain ⟨hrows, hcols⟩ := List.append_inj heq (by simpa using hlen)
  rw [← zipWith_valAt_row_col h x, ← zipWith_valAt_row_col h x', hrows, hcols]

/-- SCRAMBLE loses nothing of a buffer whose length is known (R164). -/
theorem scr_injective (h : IsTable C2V V2C) {X Y : List Byte} (hlen : X.length = Y.length)
    (heq : scr C2V V2C X = scr C2V V2C Y) : X = Y := by
  have hregroup : regroup C2V (combined V2C (dataNibbles X)) (dataNibbles X) =
      regroup C2V (combined V2C (dataNibbles Y)) (dataNibbles Y) := by
    rw [← dataNibbles_scr, heq, dataNibbles_scr]
  have hcombined : combined V2C (dataNibbles X) = combined V2C (dataNibbles Y) := by
    rw [← flatMap_row_col_regroup h _ (dataNibbles X) (combined_length V2C _), hregroup,
      flatMap_row_col_regroup h _ _ (combined_length V2C _)]
  have hnibbles : dataNibbles X = dataNibbles Y := combined_injective h (by simp [hlen]) hcombined
  rw [← packNibbles_dataNibbles X, hnibbles, packNibbles_dataNibbles]

end

/-- Settles O29: on the finitely many buffers of one length an injection into themselves is onto. -/
theorem scrambleIsBijective : Obligations.ScrambleIsBijective := by
  intro C2V V2C h
  refine ⟨fun X Y => scr_injective h, fun Y => ?_⟩
  have hfinite : {X : List Byte | X.length = Y.length}.Finite := List.finite_length_eq Byte Y.length
  have hmaps : Set.MapsTo (scr C2V V2C) {X | X.length = Y.length} {X | X.length = Y.length} :=
    fun X hX => (scr_length C2V V2C X).trans hX
  have hinj : Set.InjOn (scr C2V V2C) {X | X.length = Y.length} :=
    fun X hX X' hX' => scr_injective h (hX.trans hX'.symm)
  exact ((hfinite.injOn_iff_bijOn_of_mapsTo hmaps).mp hinj).surjOn rfl

/-! ### The commands -/

/-- A command on a buffer, once ready, answers OK with what it makes of the buffer, and writes no state (R90, R161, R162). -/
theorem guarded_respond_buffer (f : State → List Byte) {s : State} {inp : List Byte} {ready : Bool}
    (hlen : inp.length ≤ s.params.MAXSEG) (hready : ready = true) :
    guarded (lenFits inp s) .lengthError ready (fun s => respond (f s) s) s =
      .next { s with respOut := s.respOut ++ responseFrame .ok (f s) } := by
  rw [lenFits_eq_true.mpr hlen, hready, guarded_of_ready, respond_eq, State.emit]

/-- Settles O27: SCRAMBLE is a command on a buffer. -/
theorem scrambleReturnsRegrouping : Obligations.ScrambleReturnsRegrouping :=
  fun s inp hlen hT => (exec_scramble inp s).trans (guarded_respond_buffer (fun s => scr s.C2V s.V2C inp) hlen hT)

/-- Settles O30: UNSCRAMBLE is a command on a buffer, and the open function has its table and the buffer as arguments. -/
theorem unscrambleKeepsLength : Obligations.UnscrambleKeepsLength := by
  intro C2V inp
  refine ⟨unscr C2V inp, unscr_length C2V inp, fun s htable hlen hT => ?_⟩
  rw [exec_unscramble, guarded_respond_buffer (fun s => unscr s.C2V inp) hlen hT, htable]

end Sys2Proof.Machine
end

section
/-! PROOF. The adapter (43_ofb_adapter R175 to R186): what AINIT opens, the closed form of XFORM, XFORM undoing itself, the cuts of
a primitive session, and two sessions under one key. -/

namespace Sys2Proof.Machine

/-! ### AINIT -/

/-- AINIT.P of a whole key passes its one check (R91, R176). -/
theorem exec_ainitP_of_length {key : List Byte} (hlen : key.length = 16) (s : State) :
    exec (.ainitP key) s = .next ((primitiveSteps key s).emit .ok []) := by
  rw [exec_ainitP, lenIsBlock_eq_true.mpr hlen, guarded_of_ready, respond_eq]

/-- AINIT.H of a whole key passes its one check (R91, R176). -/
theorem exec_ainitH_of_length {key : List Byte} (hlen : key.length = 16) (s : State) :
    exec (.ainitH key) s = .next ((hybridSteps key s).emit .ok []) := by
  rw [exec_ainitH, lenIsBlock_eq_true.mpr hlen, guarded_of_ready, respond_eq]

/-- The third selector is routed as the second (R175). -/
theorem exec_ainitH2_eq_ainitH (key : List Byte) (s : State) : exec (.ainitH2 key) s = exec (.ainitH key) s := by
  rw [exec_ainitH2, exec_ainitH]

/-- Settles O31: the length check passes, and the steps of AINIT load the key's schedule and open a session on it. -/
theorem ainitPrimitiveOpensSession : Obligations.AinitPrimitiveOpensSession := by
  intro s key hlen S
  rw [exec_ainitP_of_length hlen, primitiveSteps_eq, keySteps_eq, startSession_eq, State.emit, responseFrame_ok_nil]
  rfl

/-- Settles O32: as AINIT.P with the table loaded too, and the two hybrid selectors perform the same steps. -/
theorem ainitHybridOpensSession : Obligations.AinitHybridOpensSession := by
  intro s key hlen S opened
  have hH : exec (.ainitH key) s = .next opened := by
    rw [exec_ainitH_of_length hlen, hybridSteps_eq, tableSteps_eq, keySteps_eq, startSession_eq, State.emit, responseFrame_ok_nil]
    rfl
  exact ⟨hH, (exec_ainitH2_eq_ainitH key s).trans hH⟩

/-! ### XFORM -/

theorem maskOf_primitive {s : State} (h : s.AVAR = false) (Y : List Byte) : maskOf s Y = Y := by simp [maskOf, h]

theorem maskOf_hybrid {s : State} (h : s.AVAR = true) (Y : List Byte) : maskOf s Y = scr s.C2V s.V2C Y := by simp [maskOf, h]

/-- XFORM of a segment that fits an open session passes its checks (R90, R181). -/
theorem exec_xform_of_open {s : State} {inp : List Byte} (hlen : inp.length ≤ s.params.MAXSEG) (hopen : s.AVALID = true) :
    exec (.xform inp) s = xformSteps inp s := by
  rw [exec_xform, lenFits_eq_true.mpr hlen, hopen, guarded_of_ready]

/-- Settles O33: the closed form of XFORM, where a primitive session's mask is the raw keystream. -/
theorem xformPrimitiveXorsKeystream : Obligations.XformPrimitiveXorsKeystream := by
  intro s inp hlen hopen hprimitive
  rw [exec_xform_of_open hlen hopen, xformSteps_eq, maskOf_primitive hprimitive]
  rfl

/-- Settles O34: the closed form of XFORM, where a hybrid session's mask is the scrambled keystream. -/
theorem xformHybridXorsScrambledKeystream : Obligations.XformHybridXorsScrambledKeystream := by
  intro s inp hlen hopen hhybrid
  rw [exec_xform_of_open hlen hopen, xformSteps_eq, maskOf_hybrid hhybrid]
  rfl

/-! ### A successful XFORM -/

/-- What XFORM of `inp` returns (R182, R183). -/
def State.xformOutput (s : State) (inp : List Byte) : List Byte := xorBytes inp (maskOf s (s.nextKS inp.length).1)

@[simp] theorem xformOutput_length (s : State) (inp : List Byte) : (s.xformOutput inp).length = inp.length := by
  simp [State.xformOutput]

/-- Taking keystream bytes sends nothing. -/
theorem nextKS_respOut (n : Nat) (s : State) : (s.nextKS n).2.respOut = s.respOut := by rw [nextKS_state]

/-- Keystream bytes do not depend on what has been sent. -/
theorem nextKS_emit (n : Nat) (st : Status) (out : List Byte) (s : State) :
    (s.emit st out).nextKS n = ((s.nextKS n).1, (s.nextKS n).2.emit st out) := by
  refine Prod.ext (nextKS_bytes_congr (s := s.emit st out) (t := s) rfl rfl rfl rfl n) ?_
  rw [nextKS_state, nextKS_state]
  rfl

/-- XFORM ends with OK exactly when both its checks pass, and then with its output, past the keystream it took (R181). -/
theorem answersOk_xform_iff {s t : State} {inp out : List Byte} :
    AnswersOk (.xform inp) s out t ↔
      inp.length ≤ s.params.MAXSEG ∧ s.AVALID = true ∧ out = s.xformOutput inp ∧
        t = (s.nextKS inp.length).2.emit .ok out := by
  constructor
  · rintro ⟨hexec, hanswer⟩
    have hok : AnswersWith .ok s t := ⟨out, hanswer⟩
    obtain ⟨-, rfl⟩ | ⟨-, -, rfl⟩ | ⟨hlen, hopen, hperform⟩ := guarded_cases (exec_xform inp s ▸ hexec)
    · cases (answersWith_emit rfl _ _ _).mp hok
    · cases (answersWith_emit rfl _ _ _).mp hok
    · obtain rfl : (s.nextKS inp.length).2.emit .ok (s.xformOutput inp) = t := Host.Outcome.next.inj hperform
      rw [State.emit_respOut, nextKS_respOut] at hanswer
      obtain rfl := payload_of_frame (List.append_cancel_left hanswer)
      exact ⟨lenFits_eq_true.mp hlen, hopen, rfl, rfl⟩
  · rintro ⟨hlen, hopen, rfl, rfl⟩
    exact ⟨exec_xform_of_open hlen hopen, by rw [State.emit_respOut, nextKS_respOut]⟩

/-! ### Sessions at the same place -/

/-- Two states whose sessions stand at the same place: they agree on everything XFORM reads, which is the table in a hybrid session
only (R180 to R183). -/
def SameSession (s t : State) : Prop :=
  s.params = t.params ∧ s.S = t.S ∧ s.FB = t.FB ∧ s.KS = t.KS ∧ s.CUR = t.CUR ∧ s.AVAR = t.AVAR ∧ s.AVALID = t.AVALID ∧
    (s.AVAR = true → s.C2V = t.C2V ∧ s.V2C = t.V2C)

theorem sameSession_refl (s : State) : SameSession s s := ⟨rfl, rfl, rfl, rfl, rfl, rfl, rfl, fun _ => ⟨rfl, rfl⟩⟩

section
variable {s s' : State}

/-- What has been sent is no part of a session. -/
theorem sameSession_emit (st st' : Status) (out out' : List Byte) :
    SameSession (s.emit st out) (s'.emit st' out') ↔ SameSession s s' := Iff.rfl

theorem sameSession_primitiveSteps (key : List Byte) (hparams : s.params = s'.params) :
    SameSession (primitiveSteps key s) (primitiveSteps key s') := by
  simp [SameSession, hparams]

theorem sameSession_hybridSteps (key : List Byte) (hparams : s.params = s'.params) :
    SameSession (hybridSteps key s) (hybridSteps key s') := by
  simp [SameSession, hparams]

/-- Sessions at the same place move along the keystream together (R180). -/
theorem sameSession_nextKS (n : Nat) (h : SameSession s s') : SameSession (s.nextKS n).2 (s'.nextKS n).2 := by
  obtain ⟨hparams, hS, hFB, hKS, hCUR, hAVAR, hopen, htable⟩ := h
  obtain ⟨hFB', hKS', hCUR'⟩ := nextKS_session_congr hS hFB hKS hCUR n
  simp only [nextKS_state] at hFB' hKS' hCUR' ⊢
  exact ⟨hparams, hS, hFB', hKS', hCUR', hAVAR, hopen, htable⟩

/-- Sessions at the same place combine one mask with the data, and the second combination takes it out again (R185). -/
theorem xformOutput_xformOutput (inp : List Byte) (h : SameSession s s') : s'.xformOutput (s.xformOutput inp) = inp := by
  obtain ⟨-, hS, hFB, hKS, hCUR, hAVAR, -, htable⟩ := h
  have hmask : maskOf s' (s'.nextKS inp.length).1 = maskOf s (s.nextKS inp.length).1 := by
    rw [maskOf_congr hAVAR htable, nextKS_bytes_congr hS hFB hKS hCUR]
  rw [State.xformOutput, xformOutput_length, hmask]
  exact xorBytes_cancel inp _ (by simp)

/-- XFORM of a session's output in a session at the same place returns the input (R185). -/
theorem answersOk_xform_undo {u : State} {inp out : List Byte} (h : SameSession s s') (hx : AnswersOk (.xform inp) s out u) :
    AnswersOk (.xform out) s' inp ((s'.nextKS inp.length).2.emit .ok inp) := by
  obtain ⟨hlen, hopen, rfl, -⟩ := answersOk_xform_iff.mp hx
  have hundo := xformOutput_xformOutput inp h
  obtain ⟨hparams, -, -, -, -, -, hopen', -⟩ := h
  refine answersOk_xform_iff.mpr ⟨?_, hopen' ▸ hopen, hundo.symm, ?_⟩
  · rwa [xformOutput_length, ← hparams]
  · rw [xformOutput_length]

end

/-- Settles O35: a session stands at its own place, and XFORM takes as many keystream bytes for the output as for the input. -/
theorem xformIsSymmetric : Obligations.XformIsSymmetric := by
  intro s t inp out hx
  obtain ⟨-, -, -, rfl⟩ := answersOk_xform_iff.mp hx
  have hundo := answersOk_xform_undo (sameSession_refl s) hx
  rw [State.emit, nextKS_respOut] at hundo
  exact hundo

/-! ### Cuts -/

/-- In a primitive session the output of a joined segment is that of its parts, the second taken where the first ends (R186). -/
theorem xformOutput_append {s : State} (hprimitive : s.AVAR = false) (X Y : List Byte) :
    s.xformOutput (X ++ Y) = s.xformOutput X ++ (s.nextKS X.length).2.xformOutput Y := by
  have hprimitive' : (s.nextKS X.length).2.AVAR = false := by rwa [nextKS_state]
  simp only [State.xformOutput, maskOf_primitive hprimitive, maskOf_primitive hprimitive', List.length_append, nextKS_add]
  exact List.zipWith_append (by simp)

/-- What has been sent does not matter to XFORM. -/
theorem xformOutput_emit (st : Status) (out : List Byte) (s : State) (inp : List Byte) :
    (s.emit st out).xformOutput inp = s.xformOutput inp := by
  rw [State.xformOutput, nextKS_emit]
  rfl

/-- Settles O36: the keystream taken in two parts is the keystream taken at once, and a primitive session combines it as it is. -/
theorem xformPrimitiveIgnoresCuts : Obligations.XformPrimitiveIgnoresCuts := by
  intro s t u X Y x y hprimitive hlen hX hY
  obtain ⟨-, hopen, rfl, rfl⟩ := answersOk_xform_iff.mp hX
  obtain ⟨-, -, rfl, rfl⟩ := answersOk_xform_iff.mp hY
  refine answersOk_xform_iff.mpr ⟨by rwa [List.length_append], hopen, ?output, ?state⟩
  case output => rw [xformOutput_append hprimitive, xformOutput_emit]
  case state =>
    rw [nextKS_emit, List.length_append, nextKS_add]
    simp only [State.emit, nextKS_respOut]

/-! ### Two sessions -/

/-- A run in a session at the same place as the first run's undoes it segment by segment (R185). -/
theorem xformRun_undo {s s' e : State} {ins outs : List (List Byte)} (h : SameSession s s') (hrun : XformRun s ins outs e) :
    ∃ e', XformRun s' outs ins e' := by
  induction ins generalizing s s' outs with
  | nil =>
    cases outs with
    | nil => exact ⟨s', rfl⟩
    | cons => exact hrun.elim
  | cons x ins ih =>
    cases outs with
    | nil => exact hrun.elim
    | cons y outs =>
      obtain ⟨u, hx, hrest⟩ := hrun
      obtain ⟨-, -, -, rfl⟩ := answersOk_xform_iff.mp hx
      obtain ⟨e', hrest'⟩ := ih ((sameSession_emit .ok .ok y x).mpr (sameSession_nextKS x.length h)) hrest
      exact ⟨e', _, answersOk_xform_undo h hx, hrest'⟩

/-- Either hybrid selector opens the same session (R175). -/
theorem eq_of_exec_ainitH_or_ainitH2 {s t : State} {key : List Byte} (hlen : key.length = 16)
    (h : exec (.ainitH key) s = .next t ∨ exec (.ainitH2 key) s = .next t) : t = (hybridSteps key s).emit .ok [] := by
  rw [exec_ainitH2_eq_ainitH, or_self, exec_ainitH_of_length hlen] at h
  exact (Host.Outcome.next.inj h).symm

/-- Settles O37: one key and one variant open sessions at the same place, and a run in the second undoes the first's. -/
theorem sessionRoundTrip : Obligations.SessionRoundTrip := by
  intro s s' t t' e key ins outs hlen hparams hopened hrun
  have same : SameSession t t' := by
    obtain ⟨ht, ht'⟩ | ⟨ht, ht'⟩ := hopened
    · rw [exec_ainitP_of_length hlen] at ht ht'
      obtain rfl := Host.Outcome.next.inj ht
      obtain rfl := Host.Outcome.next.inj ht'
      exact (sameSession_emit _ _ _ _).mpr (sameSession_primitiveSteps key hparams)
    · rw [eq_of_exec_ainitH_or_ainitH2 hlen ht, eq_of_exec_ainitH_or_ainitH2 hlen ht']
      exact (sameSession_emit _ _ _ _).mpr (sameSession_hybridSteps key hparams)
  exact xformRun_undo same hrun

end Sys2Proof.Machine
end

section
/-! PROOF. The hasher's commands (44_sha1 R201 to R209): what each writes and answers, and the digest of the message absorbed. -/

namespace Sys2Proof.Machine

/-! ### HINIT -/

/-- Settles O39: the length check is HINIT's only one. -/
theorem hinitStartsDigest : Obligations.HinitStartsDigest := by
  intro s inp
  rw [exec_hinit_startDigest]
  split
  case isTrue hnil =>
    rw [lenIsZero_eq_true.mpr (List.length_eq_zero_iff.mpr hnil), guarded_of_ready, respond_eq, emit_nil]
    rfl
  case isFalse hne =>
    rw [lenIsZero_eq_false.mpr (mt List.length_eq_zero_iff.mp hne), guarded_of_length, emit_nil]
    rfl

/-! ### HUPDATE -/

section
variable {s : State} {inp : List Byte}

/-- Past its first two checks HUPDATE has the message limit left to check (R209). -/
theorem exec_hupdate_of_active (hlen : inp.length ≤ s.params.MAXSEG) (hactive : s.HSTATE = .active) :
    exec (.hupdate inp) s = updateSteps inp s := by
  rw [exec_hupdate, lenFits_eq_true.mpr hlen, hashActive_eq_true.mpr hactive, guarded_of_ready]

/-- HUPDATE within both limits, while a digest is in progress (R203). -/
theorem exec_hupdate_of_limit (hlen : inp.length ≤ s.params.MAXSEG) (hactive : s.HSTATE = .active)
    (hlimit : s.HLEN.toNat + inp.length ≤ hmaxlen) :
    exec (.hupdate inp) s = .next ((s.extendDigest inp).emit .ok []) := by
  rw [exec_hupdate_of_active hlen hactive, updateSteps_extendDigest, if_neg (Nat.not_lt.mpr hlimit), respond_eq]

end

/-- Settles O13: past the message limit nothing is absorbed. -/
theorem hupdateRefusesOverlongMessage : Obligations.HupdateRefusesOverlongMessage := by
  intro s inp hlen hactive hlong
  have hexceeds : s.HLEN.toNat + inp.length > hmaxlen := hlong
  rw [exec_hupdate_of_active hlen hactive, updateSteps_extendDigest, if_pos hexceeds, raise_eq, emit_nil]
  rfl

/-- The digest registers after HUPDATE, HBUFN and HLEN in closed form (R203). -/
theorem extendDigest_eq (inp : List Byte) (s : State) :
    s.extendDigest inp =
      { s with
        H := (absorbAll inp s.hashBuffer).H
        HBUF := (absorbAll inp s.hashBuffer).HBUF
        HBUFN := Fin.ofNat 64 (s.HBUFN.val + inp.length)
        HLEN := BitVec.ofNat 64 (s.HLEN.toNat + inp.length) } := by
  have hHBUFN : (absorbAll inp s.hashBuffer).HBUFN = Fin.ofNat 64 (s.HBUFN.val + inp.length) :=
    Fin.ext (absorbAll_HBUFN inp s.hashBuffer)
  have hHLEN : s.HLEN + BitVec.ofNat 64 inp.length = BitVec.ofNat 64 (s.HLEN.toNat + inp.length) := by
    rw [BitVec.ofNat_add, BitVec.ofNat_toNat, BitVec.setWidth_eq]
  rw [State.extendDigest, State.absorb, hHBUFN, hHLEN]

/-- Settles O40: HUPDATE leaves the registers of `extendDigest`. -/
theorem hupdateAbsorbsPiece : Obligations.HupdateAbsorbsPiece := by
  intro s inp hlen hactive hlimit
  rw [exec_hupdate_of_limit hlen hactive hlimit, emit_nil, extendDigest_eq]
  rfl

/-- The count of bytes does not overflow within the message limit (R209). -/
theorem extendDigest_HLEN_toNat {s : State} {inp : List Byte} (hlimit : s.HLEN.toNat + inp.length ≤ hmaxlen) :
    (s.extendDigest inp).HLEN.toNat = s.HLEN.toNat + inp.length := by
  rw [hmaxlen] at hlimit
  rw [extendDigest_eq, BitVec.toNat_ofNat, Nat.mod_eq_of_lt (by omega)]

theorem extendDigest_append (X Y : List Byte) (s : State) :
    (s.extendDigest X).extendDigest Y = s.extendDigest (X ++ Y) := by
  have hHLEN : s.HLEN + BitVec.ofNat 64 X.length + BitVec.ofNat 64 Y.length = s.HLEN + BitVec.ofNat 64 (X ++ Y).length := by
    rw [List.length_append, BitVec.ofNat_add, BitVec.add_assoc]
  simp only [State.extendDigest, absorb_append, ← hHLEN]
  rfl

/-- Settles O42: absorbing and counting in two parts is absorbing and counting at once. -/
theorem hashUpdatesConcatenate : Obligations.HashUpdatesConcatenate := by
  intro s X Y hactive hlen hlimit
  have hX : s.HLEN.toNat + X.length ≤ hmaxlen := (Nat.le_add_right _ _).trans hlimit
  have hY : (s.extendDigest X).HLEN.toNat + Y.length ≤ hmaxlen := by rwa [extendDigest_HLEN_toNat hX]
  have hXY : s.HLEN.toNat + (X ++ Y).length ≤ hmaxlen := by rwa [List.length_append, ← Nat.add_assoc]
  have hYfits : Y.length ≤ s.params.MAXSEG := by omega
  refine ⟨_, _, _, exec_hupdate_of_limit (by omega) hactive hX, exec_hupdate_of_limit hYfits hactive hY,
    exec_hupdate_of_limit (by rwa [List.length_append]) hactive hXY, ?state⟩
  case state => rw [← extendDigest_append]; rfl

/-- A digest of exactly `msg` is in progress. -/
def Hashing (msg : List Byte) (s : State) : Prop := s.HSTATE = .active ∧ Absorbed msg s

/-- Hashing reads the hasher's registers only (R50). -/
theorem hashing_of_sameHasher {msg : List Byte} {s t : State} (hsame : SameHasher s t) (h : Hashing msg s) :
    Hashing msg t := by
  have hbuffer := hashBuffer_congr hsame
  obtain ⟨-, -, -, hHLEN, hHSTATE⟩ := hsame
  rwa [Hashing, Absorbed, ← hHSTATE, ← hHLEN, ← hbuffer]

/-- HUPDATE extends the message within the message limit (R42, R203). -/
theorem exec_hupdate_of_hashing {msg inp : List Byte} {s : State} (h : Hashing msg s)
    (hlen : inp.length ≤ s.params.MAXSEG) (hlimit : msg.length + inp.length ≤ hmaxlen) :
    ∃ t, exec (.hupdate inp) s = .next t ∧ Hashing (msg ++ inp) t := by
  obtain ⟨hactive, hcount, hbuffer⟩ := h
  rw [← hcount] at hlimit
  refine ⟨_, exec_hupdate_of_limit hlen hactive hlimit, hactive, ?_, absorbAll_buffered inp msg _ hbuffer⟩
  rw [State.emit_HLEN, extendDigest_HLEN_toNat hlimit, hcount, List.length_append]

/-- Settles O41: `absorbAll_buffered` for the buffer, and the count of bytes does not overflow. -/
theorem hupdateExtendsMessage : Obligations.HupdateExtendsMessage := by
  intro s msg inp habsorbed hlen hactive hlimit
  obtain ⟨t, ht, hactive', habsorbed'⟩ := exec_hupdate_of_hashing ⟨hactive, habsorbed⟩ hlen hlimit
  exact ⟨t, ht, habsorbed', hactive'⟩

/-! ### HFINAL -/

/-- The digest HFINAL answers, from the hasher's registers (R206). -/
def State.digest (s : State) : List Byte := digestBytes (absorbAll (padding s.HBUFN s.HLEN) s.hashBuffer).H

theorem exec_hfinal_of_active {s : State} (hactive : s.HSTATE = .active) :
    exec (.hfinal []) s = .next (s.closeDigest.emit .ok s.digest) := by
  rw [exec_hfinal, lenIsZero_eq_true.mpr rfl, hashActive_eq_true.mpr hactive, guarded_of_ready]
  rfl

/-- The response frame of HFINAL: 20 bytes (R85, R206). -/
theorem responseFrame_ok_digest (s : State) : responseFrame .ok s.digest = [0x14, 0x00, 0x00, 0x00] ++ s.digest := by
  have hword : bytesLe32 (responseWord .ok 20) = [0x14, 0x00, 0x00, 0x00] := by decide
  have hlen : s.digest.length = 20 := rfl
  rw [responseFrame, hlen, hword]

/-- The number of zero bytes of PAD, without the remainder of a negative number (R206). -/
theorem padding_eq (HBUFN : Fin 64) (HLEN : BitVec 64) :
    padding HBUFN HLEN = [0x80] ++ List.replicate ((119 - HBUFN.val) % 64) 0 ++ bytesBe64 (8 * HLEN) := rfl

/-- Settles O43: `closeDigest` leaves the other units untouched. -/
theorem hfinalEndsDigest : Obligations.HfinalEndsDigest := by
  intro s hactive
  refine ⟨_, exec_hfinal_of_active hactive, ?answer, rfl⟩
  case answer => rw [State.emit_respOut, responseFrame_ok_digest, State.digest, padding_eq]; rfl

/-- The padding from the hasher's registers is that of the message absorbed (R206). -/
theorem append_padding_of_absorbed {msg : List Byte} {s : State} (h : Absorbed msg s) :
    msg ++ padding s.HBUFN s.HLEN = sha1Padded msg := by
  obtain ⟨hcount, hHBUFN, -, -⟩ := h
  have hused : s.HBUFN.val = msg.length % 64 := hHBUFN
  have hHLEN : 8 * s.HLEN = BitVec.ofNat 64 (8 * msg.length) := by
    rw [BitVec.ofNat_mul, ← hcount, BitVec.ofNat_toNat, BitVec.setWidth_eq]
    rfl
  simp only [padding_eq, sha1Padded, hused, hHLEN, List.append_assoc]

/-- After the padding the chaining value is that of all blocks of the padded message (R204 to R206). -/
theorem digest_of_absorbed {msg : List Byte} {s : State} (h : Absorbed msg s) : s.digest = sha1 msg := by
  obtain ⟨-, hbuffer⟩ := id h
  obtain ⟨-, hH, -⟩ := absorbAll_buffered (padding s.HBUFN s.HLEN) msg s.hashBuffer hbuffer
  rw [State.digest, hH, append_padding_of_absorbed h, sha1]

/-- HFINAL answers the digest of the message (R206). -/
theorem exec_hfinal_of_hashing {msg : List Byte} {s : State} (h : Hashing msg s) :
    exec (.hfinal []) s = .next (s.closeDigest.emit .ok (sha1 msg)) := by
  obtain ⟨hactive, habsorbed⟩ := h
  rw [exec_hfinal_of_active hactive, digest_of_absorbed habsorbed]

/-- Settles O44: HFINAL completes the blocks of the padded message. -/
theorem hfinalReturnsDigest : Obligations.HfinalReturnsDigest :=
  fun _ _ hactive habsorbed => ⟨_, exec_hfinal_of_hashing ⟨hactive, habsorbed⟩, rfl, rfl⟩

/-! ### A whole digest -/

theorem messagePiece_of_not_isHash {i : Instr} (h : i.isHash = false) : i.messagePiece = [] := by
  cases i with
  | hinit | hupdate | hfinal => cases h
  | keyinit | encblk | decblk | nsinit | scramble | unscramble | ainitP | ainitH | ainitH2 | xform => rfl

/-- One command of a digest extends the message by its piece: a cipher command leaves the hasher alone (R50, R203). -/
theorem hashing_of_exec {msg : List Byte} {i : Instr} {s t : State} (h : Hashing msg s)
    (hi : i.isHash = true → ∃ inp : List Byte, i = .hupdate inp ∧ inp.length ≤ s.params.MAXSEG)
    (hlimit : msg.length + i.messagePiece.length ≤ hmaxlen) (hexec : exec i s = .next t) :
    Hashing (msg ++ i.messagePiece) t := by
  cases hhash : i.isHash with
  | false =>
    rw [messagePiece_of_not_isHash hhash, List.append_nil]
    exact hashing_of_sameHasher (effect_sameHasher (exec_effect hexec) hhash) h
  | true =>
    obtain ⟨inp, rfl, hlen⟩ := hi hhash
    obtain ⟨u, hu, hextended⟩ := exec_hupdate_of_hashing h hlen hlimit
    obtain rfl := Host.Outcome.next.inj (hexec.symm.trans hu)
    exact hextended

/-- A run of HUPDATE and cipher commands extends the message by the pieces in order (R207). -/
theorem hashing_of_runTo {msg : List Byte} {cmds : List Instr} {s t : State} (h : Hashing msg s)
    (hcmds : ∀ i ∈ cmds, i.isHash = true → ∃ inp : List Byte, i = .hupdate inp ∧ inp.length ≤ s.params.MAXSEG)
    (hlimit : msg.length + (cmds.flatMap Instr.messagePiece).length ≤ hmaxlen) (hrun : RunTo s cmds t) :
    Hashing (msg ++ cmds.flatMap Instr.messagePiece) t := by
  induction cmds generalizing s msg with
  | nil =>
    obtain rfl : s = t := hrun
    rwa [List.flatMap_nil, List.append_nil]
  | cons i cmds ih =>
    obtain ⟨u, hexec, hrest⟩ := hrun
    rw [List.forall_mem_cons] at hcmds
    obtain ⟨hi, hcmds⟩ := hcmds
    rw [List.flatMap_cons, List.length_append] at hlimit
    rw [← effect_params (exec_effect hexec)] at hcmds
    rw [List.flatMap_cons, ← List.append_assoc]
    exact ih (hashing_of_exec h hi (by omega) hexec) hcmds (by rw [List.length_append]; omega) hrest

/-- After HINIT the message is empty (R201). -/
theorem exec_hinit_hashing {s t : State} (h : exec (.hinit []) s = .next t) : Hashing [] t ∧ t.params = s.params := by
  obtain rfl : s.startDigest.emit .ok [] = t := Host.Outcome.next.inj h
  exact ⟨⟨rfl, rfl, rfl, rfl, nofun⟩, rfl⟩

/-- Settles O45: HINIT starts with the empty message, the run extends it, HFINAL answers its digest. -/
theorem digestOfWholeMessage : Obligations.DigestOfWholeMessage := by
  intro s s0 t cmds hcmds hlimit hinit hrun
  obtain ⟨hstart, hparams⟩ := exec_hinit_hashing hinit
  have hend := hashing_of_runTo hstart (hparams ▸ hcmds) (by rwa [List.length_nil, Nat.zero_add]) hrun
  exact ⟨_, exec_hfinal_of_hashing hend, rfl⟩

end Sys2Proof.Machine
end

section
/-! PROOF. The compression of SHA-1 as sequences, and the bytes of its numbers (44_sha1 R204 to R206). -/

namespace Sys2Proof.Machine

/-- The working words before step 0 (R204). -/
def hashStart (H : Vector Word 5) : HashWords := { a := H[0], b := H[1], c := H[2], d := H[3], e := H[4] }

/-- Message word `t` of a block (R204). -/
def messageWord (M : Vector Byte 64) (t : Nat) : Word := (extendWords (blockWords M) 64).getD t 0

theorem messageWord_of_lt (M : Vector Byte 64) {t : Nat} (ht : t < 16) :
    messageWord M t = M.getD (4 * t) 0 ++ M.getD (4 * t + 1) 0 ++ M.getD (4 * t + 2) 0 ++ M.getD (4 * t + 3) 0 := by
  rw [messageWord, extendWords_getD_of_lt _ (blockWords_length M) 64 t ht]
  simp [blockWords, be32, ht]

/-- The working words before step `t` (R204). -/
def hashWordsAt (H : Vector Word 5) (M : Vector Byte 64) (t : Nat) : HashWords :=
  hashSteps (extendWords (blockWords M) 64) t (hashStart H)

theorem hashWordsAt_succ (H : Vector Word 5) (M : Vector Byte 64) (t : Nat) :
    hashWordsAt H M (t + 1) = hashStep t (messageWord M t) (hashWordsAt H M t) := rfl

section
variable {t : Nat} (b c d : Word)

/-! The round function and constant in the four ranges of steps (R205). -/

theorem round_of_lt_20 (h : t < 20) : hashF t b c d = ((b &&& c) ||| (~~~b &&& d)) ∧ hashK t = 0x5A827999 := by
  simp [hashF, hashK, h]

theorem round_of_lt_40 (h20 : 20 ≤ t) (h : t < 40) : hashF t b c d = ((b ^^^ c) ^^^ d) ∧ hashK t = 0x6ED9EBA1 := by
  simp [hashF, hashK, Nat.not_lt.mpr h20, h]

theorem round_of_lt_60 (h40 : 40 ≤ t) (h : t < 60) :
    hashF t b c d = (((b &&& c) ||| (b &&& d)) ||| (c &&& d)) ∧ hashK t = 0x8F1BBCDC := by
  simp [hashF, hashK, show ¬ t < 20 by omega, Nat.not_lt.mpr h40, h]

theorem round_of_ge_60 (h60 : 60 ≤ t) : hashF t b c d = ((b ^^^ c) ^^^ d) ∧ hashK t = 0xCA62C1D6 := by
  simp [hashF, hashK, show ¬ t < 20 by omega, show ¬ t < 40 by omega, Nat.not_lt.mpr h60]

end

theorem digestBytes_eq (H : Vector Word 5) :
    digestBytes H = [H[0], H[1], H[2], H[3], H[4]].flatMap fun w =>
      [BitVec.ofNat 8 (w.toNat / 2 ^ 24), BitVec.ofNat 8 (w.toNat / 2 ^ 16), BitVec.ofNat 8 (w.toNat / 2 ^ 8),
       BitVec.ofNat 8 w.toNat] := by
  simp [digestBytes, bytesBe32, extractByte_eq_ofNat]

theorem bytesBe64_eq (n : BitVec 64) :
    bytesBe64 n =
      [BitVec.ofNat 8 (n.toNat / 2 ^ 56), BitVec.ofNat 8 (n.toNat / 2 ^ 48), BitVec.ofNat 8 (n.toNat / 2 ^ 40),
       BitVec.ofNat 8 (n.toNat / 2 ^ 32), BitVec.ofNat 8 (n.toNat / 2 ^ 24), BitVec.ofNat 8 (n.toNat / 2 ^ 16),
       BitVec.ofNat 8 (n.toNat / 2 ^ 8), BitVec.ofNat 8 n.toNat] := by
  simp [bytesBe64, extractByte_eq_ofNat]

/-- Settles O60: the sequences are the words of the schedule, the working words before step `t`, and the round function on
them. -/
theorem hashCompressionRounds : Obligations.HashCompressionRounds := by
  refine ⟨fun H M => ?_, digestBytes_eq, bytesBe64_eq⟩
  let v := hashWordsAt H M
  refine ⟨messageWord M, fun t => (v t).a, fun t => (v t).b, fun t => (v t).c, fun t => (v t).d, fun t => (v t).e,
    fun t => hashF t (v t).b (v t).c (v t).d, hashK, ?first, ?later,
    fun t => round_of_lt_20 _ _ _, fun t => round_of_lt_40 _ _ _, fun t => round_of_lt_60 _ _ _,
    fun t h _ => round_of_ge_60 _ _ _ h, rfl, rfl, rfl, rfl, rfl, ?step, ?result⟩
  case first => exact fun t => messageWord_of_lt M
  case later => exact fun t h16 h80 => extendWords_getD_of_ge _ (blockWords_length M) 64 t h16 h80
  case step =>
    intro t _
    simp only [v, hashWordsAt_succ, hashStep, and_self]
  case result => exact compress_eq H M _ _ rfl rfl

end Sys2Proof.Machine
end

section
/-! PROOF. The host's comparison of digests as hexadecimal text (44_sha1 R210, 45_pipeline R236). -/

namespace Sys2Proof.Machine

theorem toLower_hexDigit : ∀ n : Nibble, (hexDigit n).toLower = hexDigit n := by decide

theorem toLower_toUpper_hexDigit : ∀ n : Nibble, (hexDigit n).toUpper.toLower = hexDigit n := by decide

theorem hexDigit_injective : ∀ n m : Nibble, hexDigit n = hexDigit m → n = m := by decide

theorem byteOf_hiNib_loNib (b : Byte) : byteOf (hiNib b) (loNib b) = b := BitVec.extractLsb'_append_extractLsb'

theorem hexText_cons (b : Byte) (bytes : List Byte) :
    hexText (b :: bytes) = hexDigit (hiNib b) :: hexDigit (loNib b) :: hexText bytes := rfl

/-- A change of case that keeps the digits keeps the text. -/
theorem map_hexText {f : Char → Char} (h : ∀ n, f (hexDigit n) = hexDigit n) (bytes : List Byte) :
    (hexText bytes).map f = hexText bytes := by
  simp [hexText, List.map_flatMap, h]

/-- A digest can be read off its text (R210). -/
theorem hexText_injective {x y : List Byte} (h : hexText x = hexText y) : x = y := by
  induction x generalizing y with
  | nil =>
    cases y with
    | nil => rfl
    | cons => cases h
  | cons b x ih =>
    cases y with
    | nil => cases h
    | cons b' y =>
      simp only [hexText_cons, List.cons.injEq] at h
      obtain ⟨hhi, hlo, hrest⟩ := h
      rw [← byteOf_hiNib_loNib b, hexDigit_injective _ _ hhi, hexDigit_injective _ _ hlo, byteOf_hiNib_loNib, ih hrest]

/-- The verdict on a stored text that is a digest's text in lower case (R210, R236). -/
theorem hashValid_iff {text : List Char} {stored : List Byte} (h : text.map Char.toLower = hexText stored)
    (digest : List Byte) : hashValid text digest = true ↔ stored = digest := by
  rw [hashValid, h, map_hexText toLower_hexDigit, beq_iff_eq]
  exact ⟨hexText_injective, congrArg hexText⟩

/-- Settles O59: in lower case either stored text is the digest's, and a digest can be read off its text. -/
theorem hashVerdictIsDigestEquality : Obligations.HashVerdictIsDigestEquality := by
  intro stored digest
  refine ⟨hashValid_iff (map_hexText toLower_hexDigit stored) digest, hashValid_iff ?upper digest⟩
  case upper => rw [List.map_map, map_hexText toLower_toUpper_hexDigit]

end Sys2Proof.Machine
end

section
/-! PROOF. The host's sequences (45_pipeline R232 to R239): each ends with the digest of the plaintext and the data combined with the
session's mask, or aborts at the AINIT. -/

namespace Sys2Proof.Machine

/-! ### The mask of a run of segments -/

/-- What a session XORs into segments of the given lengths, one after another (R182, R183). -/
def State.sessionMask : List Nat → State → List Byte
  | [], _ => []
  | n :: ns, s => maskOf s (s.nextKS n).1 ++ State.sessionMask ns (s.nextKS n).2

@[simp] theorem sessionMask_length (ns : List Nat) (s : State) : (s.sessionMask ns).length = ns.sum := by
  induction ns generalizing s with
  | nil => rfl
  | cons n ns ih => simp [State.sessionMask, ih]

/-- Sessions at the same place have the same mask (R185). -/
theorem sessionMask_congr {s t : State} (ns : List Nat) (h : SameSession s t) : s.sessionMask ns = t.sessionMask ns := by
  induction ns generalizing s t with
  | nil => rfl
  | cons n ns ih =>
    have hrest := ih (sameSession_nextKS n h)
    obtain ⟨-, hS, hFB, hKS, hCUR, hAVAR, -, htable⟩ := h
    rw [State.sessionMask, State.sessionMask, maskOf_congr hAVAR htable, nextKS_bytes_congr hS hFB hKS hCUR, hrest]

/-- The mask of a primitive session is its keystream, wherever the segments end (R186). -/
theorem sessionMask_primitive {s : State} (ns : List Nat) (h : s.AVAR = false) : s.sessionMask ns = (s.nextKS ns.sum).1 := by
  induction ns generalizing s with
  | nil => rfl
  | cons n ns ih =>
    have hrest : (s.nextKS n).2.AVAR = false := by rwa [nextKS_state]
    rw [State.sessionMask, maskOf_primitive h, ih hrest, List.sum_cons, nextKS_add]

/-- Segments of the same total length have the same mask, in a hybrid session if they end at the same places (R235). -/
theorem sessionMask_of_cuts {s : State} {ns ms : List Nat} (hsum : ns.sum = ms.sum) (h : s.AVAR = false ∨ ns = ms) :
    s.sessionMask ns = s.sessionMask ms := by
  rcases h with hprimitive | rfl
  · rw [sessionMask_primitive ns hprimitive, sessionMask_primitive ms hprimitive, hsum]
  · rfl

/-! ### Transforming a run of segments -/

/-- What XFORMs of the segments, in order, return one after another (R182, R183). -/
def State.transform (s : State) (xs : List (List Byte)) : List Byte :=
  xorBytes xs.flatten (s.sessionMask (xs.map List.length))

@[simp] theorem transform_length (s : State) (xs : List (List Byte)) : (s.transform xs).length = xs.flatten.length := by
  simp [State.transform, List.length_flatten]

theorem transform_congr {s t : State} (xs : List (List Byte)) (h : SameSession s t) : s.transform xs = t.transform xs := by
  rw [State.transform, sessionMask_congr _ h, State.transform]

theorem transform_cons (s : State) (x : List Byte) (xs : List (List Byte)) :
    s.transform (x :: xs) = s.xformOutput x ++ (s.nextKS x.length).2.transform xs :=
  List.zipWith_append (by simp)

/-- Transforming the output of a session in a session at the same place gives the input back, if a hybrid session's segments have
the same lengths (R185, R235). -/
theorem transform_undo {s s' : State} {xs ys : List (List Byte)} (h : SameSession s s') (hys : ys.flatten = s.transform xs)
    (hcuts : s.AVAR = false ∨ xs.map List.length = ys.map List.length) : s'.transform ys = xs.flatten := by
  have hsum : (xs.map List.length).sum = (ys.map List.length).sum := by
    rw [← List.length_flatten, ← List.length_flatten, hys, transform_length]
  rw [← transform_congr ys h, State.transform, hys, State.transform, sessionMask_of_cuts hsum hcuts]
  exact xorBytes_cancel _ _ (by rw [sessionMask_length, ← hsum, List.length_flatten])

/-- Two data combined with one mask differ where the data differ (R239). -/
theorem xorBytes_same_mask {X Y M : List Byte} (hX : X.length = M.length) (hY : Y.length = M.length) :
    xorBytes (xorBytes X M) (xorBytes Y M) = xorBytes X Y := by
  have hcancel (x y m : Byte) : (x ^^^ m) ^^^ (y ^^^ m) = x ^^^ y := by
    rw [BitVec.xor_comm y, BitVec.xor_assoc, ← BitVec.xor_assoc m, BitVec.xor_self, BitVec.zero_xor]
  apply List.ext_getElem
  · simp [hX, hY]
  · intro i _ _
    simp only [xorBytes, List.getElem_zipWith, hcancel]

/-! ### XFORMs and HUPDATEs asked by the host -/

/-- A session that answers XFORM of every segment: it is open, and the segments fit (R90, R181). -/
def Transforms (s : State) (xs : List (List Byte)) : Prop := s.AVALID = true ∧ ∀ x ∈ xs, x.length ≤ s.params.MAXSEG

/-- Past the first segment the session answers the others. -/
theorem transforms_rest {s t : State} {x : List Byte} {xs : List (List Byte)} (h : Transforms s (x :: xs))
    (hsame : SameSession (s.nextKS x.length).2 t) : Transforms t xs := by
  obtain ⟨hopen, hfits⟩ := h
  obtain ⟨hparams, -, -, -, -, -, hopen', -⟩ := hsame
  rw [nextKS_state] at hparams hopen'
  exact ⟨hopen' ▸ hopen, fun y hy => hparams ▸ hfits y (List.mem_cons_of_mem x hy)⟩

/-- The host gets the output of a segment that the session answers (R181). -/
theorem ask_xform {s : State} {x : List Byte} {xs : List (List Byte)} (h : Transforms s (x :: xs)) :
    s.ask (.xform x) = .ok (s.xformOutput x) ((s.nextKS x.length).2.emit .ok (s.xformOutput x)) := by
  obtain ⟨hopen, hfits⟩ := h
  obtain ⟨hexec, hanswer⟩ := answersOk_xform_iff.mpr ⟨hfits x List.mem_cons_self, hopen, rfl, rfl⟩
  exact ask_of_ok hexec hanswer

/-- Step 5 of the encrypt sequence (R232): the host gets the transformed segments. -/
theorem askEach_xform {s : State} {xs : List (List Byte)} (h : Transforms s xs) :
    ∃ t, s.askEach .xform xs = .ok (s.transform xs) t := by
  induction xs generalizing s with
  | nil => exact ⟨s, rfl⟩
  | cons x xs ih =>
    have hsame : SameSession (s.nextKS x.length).2 ((s.nextKS x.length).2.emit .ok (s.xformOutput x)) := sameSession_refl _
    obtain ⟨t, ht⟩ := ih (transforms_rest h hsame)
    rw [transform_cons, transform_congr xs hsame]
    exact ⟨t, askEach_cons (ask_xform h) ht⟩

/-- Asked for HUPDATE within both limits, the hasher extends the message, and no session moves (R50, R203). -/
theorem ask_hupdate {msg inp : List Byte} {s : State} (h : Hashing msg s) (hlen : inp.length ≤ s.params.MAXSEG)
    (hlimit : msg.length + inp.length ≤ hmaxlen) :
    ∃ t, s.ask (.hupdate inp) = .ok [] t ∧ Hashing (msg ++ inp) t ∧ SameSession s t := by
  obtain ⟨t, ht, hextended⟩ := exec_hupdate_of_hashing h hlen hlimit
  obtain ⟨hactive, hcount, -⟩ := h
  have hexec := exec_hupdate_of_limit hlen hactive (hcount ▸ hlimit)
  obtain rfl := Host.Outcome.next.inj (ht.symm.trans hexec)
  exact ⟨_, ask_of_ok hexec rfl, hextended, sameSession_refl s⟩

/-- Step 2 of the encrypt sequence (R232): the pieces extend the message in order. -/
theorem askEach_hupdate {msg : List Byte} {pieces : List (List Byte)} {s : State} (h : Hashing msg s)
    (hfits : ∀ x ∈ pieces, x.length ≤ s.params.MAXSEG) (hlimit : msg.length + pieces.flatten.length ≤ hmaxlen) :
    ∃ ys t, s.askEach .hupdate pieces = .ok ys t ∧ Hashing (msg ++ pieces.flatten) t ∧ t.params = s.params := by
  induction pieces generalizing msg s with
  | nil => exact ⟨[], s, rfl, by rwa [List.flatten_nil, List.append_nil], rfl⟩
  | cons x pieces ih =>
    rw [List.forall_mem_cons] at hfits
    obtain ⟨hx, hfits⟩ := hfits
    rw [List.flatten_cons, List.length_append] at hlimit
    obtain ⟨u, hask, hu, hparams, -⟩ := ask_hupdate h hx (by omega)
    obtain ⟨ys, t, hrest, ht, hparams'⟩ := ih hu (hparams ▸ hfits) (by rw [List.length_append]; omega)
    refine ⟨_, t, askEach_cons hask hrest, ?_, hparams'.trans hparams.symm⟩
    rwa [List.flatten_cons, ← List.append_assoc]

/-- The output of an XFORM, asked for right after it, extends the message, and the session stays past the keystream taken (R233). -/
theorem ask_hupdate_output {msg y : List Byte} {ys : List (List Byte)} {s : State} (h : Hashing msg s)
    (hys : Transforms s (y :: ys)) (hlimit : msg.length + y.length ≤ hmaxlen) :
    ∃ t, ((s.nextKS y.length).2.emit .ok (s.xformOutput y)).ask (.hupdate (s.xformOutput y)) = .ok [] t ∧
      Hashing (msg ++ s.xformOutput y) t ∧ SameSession (s.nextKS y.length).2 t := by
  obtain ⟨-, hfits⟩ := hys
  have hsame : SameHasher s ((s.nextKS y.length).2.emit .ok (s.xformOutput y)) := by simp [SameHasher, nextKS_state]
  refine ask_hupdate (hashing_of_sameHasher hsame h) ?fits (by rwa [xformOutput_length])
  case fits => simpa [nextKS_state] using hfits y List.mem_cons_self

/-- The loop of the decrypt sequence (R233): the host gets the transformed segments, and they extend the message. -/
theorem decryptChunks_of_hashing {msg : List Byte} {ys : List (List Byte)} {s : State} (h : Hashing msg s)
    (hys : Transforms s ys) (hlimit : msg.length + ys.flatten.length ≤ hmaxlen) :
    ∃ t, decryptChunks ys s = .ok (s.transform ys) t ∧ Hashing (msg ++ s.transform ys) t := by
  induction ys generalizing msg s with
  | nil => exact ⟨s, rfl, by simpa [State.transform, xorBytes] using h⟩
  | cons y ys ih =>
    rw [List.flatten_cons, List.length_append] at hlimit
    obtain ⟨u, hupdate, hu, hsame⟩ := ask_hupdate_output h hys (by omega)
    obtain ⟨t, hrest, ht⟩ := ih hu (transforms_rest hys hsame) (by rw [List.length_append, xformOutput_length]; omega)
    rw [transform_cons, transform_congr ys hsame, ← List.append_assoc]
    exact ⟨t, decryptChunks_cons (ask_xform hys) hupdate hrest, ht⟩

/-! ### The session of a selector -/

/-- The session AINIT opens under a selector (R177). -/
def Selector.session (sel : Selector) (key : List Byte) (s : State) : State :=
  match sel.hybrid with
  | false => primitiveSteps key s
  | true => hybridSteps key s

/-- AINIT under any selector is a length check and the session opened (R176). -/
theorem exec_ainit (sel : Selector) (key : List Byte) (s : State) : exec (sel.ainit key) s =
    guarded (lenIsBlock key) .configurationError true (fun s => respond [] (sel.session key s)) s := by
  cases sel with
  | p => exact exec_ainitP key s
  | h => exact exec_ainitH key s
  | h2 => exact exec_ainitH2 key s

/-- Opening a session sends nothing, and the session opened is of the selector's variant (R177). -/
theorem session_fields (sel : Selector) (key : List Byte) (s : State) :
    (sel.session key s).respOut = s.respOut ∧ (sel.session key s).params = s.params ∧
      (sel.session key s).AVALID = true ∧ (sel.session key s).AVAR = sel.hybrid := by
  unfold Selector.session
  cases sel.hybrid <;> simp

/-- One key and one variant open sessions at the same place (R177). -/
theorem sameSession_session {sel sel' : Selector} {s s' : State} (key : List Byte) (hvariant : sel.hybrid = sel'.hybrid)
    (hparams : s.params = s'.params) : SameSession (sel.session key s) (sel'.session key s') := by
  rw [Selector.session, Selector.session, ← hvariant]
  cases sel.hybrid with
  | false => exact sameSession_primitiveSteps key hparams
  | true => exact sameSession_hybridSteps key hparams

/-- The session AINIT opens answers every segment the host's reads return, for no chunk is longer than MAXSEG (R234). -/
theorem transforms_session_cuts {s t : State} {sel : Selector} {key : List Byte} (reads : List Nat) (X : List Byte)
    (hchunk : 65536 ≤ s.params.MAXSEG) (hsame : SameSession (sel.session key s) t) : Transforms t (cuts reads X) := by
  obtain ⟨-, hparams, hopen, -⟩ := session_fields sel key s
  obtain ⟨hparams', -, -, -, -, -, hopen', -⟩ := hsame
  refine ⟨hopen' ▸ hopen, fun x hx => ?_⟩
  rw [← hparams', hparams]
  exact (length_of_mem_cuts hx).trans hchunk

theorem ask_ainit_of_length {key : List Byte} (hlen : key.length = 16) (sel : Selector) (s : State) :
    s.ask (sel.ainit key) = .ok [] ((sel.session key s).emit .ok []) := by
  obtain ⟨hanswer, -⟩ := session_fields sel key s
  refine ask_of_ok ?_ (by rw [State.emit_respOut, hanswer])
  rw [exec_ainit, lenIsBlock_eq_true.mpr hlen, guarded_of_ready, respond_eq]

/-- A wrong key length aborts with ConfigurationError (R91, R232). -/
theorem ask_ainit_of_wrong_length {key : List Byte} (hlen : key.length ≠ 16) (sel : Selector) (s : State) :
    s.ask (sel.ainit key) = .aborted 0x01 { s with respOut := s.respOut ++ [0x00, 0x00, 0x00, 0x01] } := by
  have hexec : exec (sel.ainit key) s = .next (s.emit .configurationError []) := by
    rw [exec_ainit, lenIsBlock_eq_false.mpr hlen, guarded_of_length]
  exact ask_of_fault (f := .configurationError) hexec nofun rfl

/-! ### The sequences -/

/-- HINIT asked by the host starts the empty message, and no session moves (R50, R201). -/
theorem ask_hinit (s : State) : ∃ t, s.ask (.hinit []) = .ok [] t ∧ Hashing [] t ∧ SameSession s t := by
  have hexec : exec (.hinit []) s = .next (s.startDigest.emit .ok []) := rfl
  obtain ⟨hstart, -⟩ := exec_hinit_hashing hexec
  exact ⟨_, ask_of_ok hexec rfl, hstart, sameSession_refl s⟩

theorem ask_hfinal {msg : List Byte} {s : State} (h : Hashing msg s) :
    s.ask (.hfinal []) = .ok (sha1 msg) (s.closeDigest.emit .ok (sha1 msg)) :=
  ask_of_ok (exec_hfinal_of_hashing h) rfl

/-- Steps 1 to 3 of the encrypt sequence give the digest of the plaintext (R207, R232). -/
theorem hashPass_ok {s : State} {pieces : List (List Byte)} (hfits : ∀ x ∈ pieces, x.length ≤ s.params.MAXSEG)
    (hlimit : pieces.flatten.length ≤ hmaxlen) :
    ∃ t, hashPass pieces s = .ok (sha1 pieces.flatten) t ∧ t.params = s.params := by
  obtain ⟨u, hinit, hu, hparams, -⟩ := ask_hinit s
  obtain ⟨_, v, hupdates, hv, hparams'⟩ := askEach_hupdate hu (hparams ▸ hfits) (by rwa [List.length_nil, Nat.zero_add])
  refine ⟨v.closeDigest.emit .ok (sha1 pieces.flatten), ?_, hparams'.trans hparams.symm⟩
  simp only [hashPass, hinit, Reply.ok_andThen, hupdates]
  exact ask_hfinal hv

/-- The encrypt sequence under a whole key: the plaintext's digest, and the plaintext transformed (R232). -/
theorem encryptSequence_ok {s : State} {sel : Selector} {key : List Byte} {pieces : List (List Byte)} (reads : List Nat)
    (hkey : key.length = 16) (hchunk : 65536 ≤ s.params.MAXSEG) (hfits : ∀ x ∈ pieces, x.length ≤ s.params.MAXSEG)
    (hlimit : pieces.flatten.length ≤ hmaxlen) :
    ∃ t, encryptSequence sel key pieces reads s =
      .ok (sha1 pieces.flatten, (sel.session key s).transform (cuts reads pieces.flatten)) t := by
  obtain ⟨u, hhash, hparams⟩ := hashPass_ok hfits hlimit
  have hsame : SameSession (sel.session key s) ((sel.session key u).emit .ok []) :=
    sameSession_session key rfl hparams.symm
  obtain ⟨t, ht⟩ := askEach_xform (transforms_session_cuts reads pieces.flatten hchunk hsame)
  refine ⟨t, ?_⟩
  simp only [encryptSequence, hhash, Reply.ok_andThen, ask_ainit_of_length hkey, ht, transform_congr _ hsame]

/-- The decrypt sequence under a whole key: the data transformed, and its digest (R233). -/
theorem decryptSequence_ok {s : State} {sel : Selector} {key Q : List Byte} (reads : List Nat) (hkey : key.length = 16)
    (hchunk : 65536 ≤ s.params.MAXSEG) (hlimit : Q.length ≤ hmaxlen) :
    ∃ t, decryptSequence sel key Q reads s =
      .ok (sha1 ((sel.session key s).transform (cuts reads Q)), (sel.session key s).transform (cuts reads Q)) t := by
  obtain ⟨u, hinit, hu, hsame⟩ := ask_hinit ((sel.session key s).emit .ok [])
  have hsame' : SameSession (sel.session key s) u := hsame
  obtain ⟨v, hchunks, hv⟩ := decryptChunks_of_hashing hu (transforms_session_cuts reads Q hchunk hsame')
    (by rwa [List.length_nil, Nat.zero_add, flatten_cuts])
  rw [← transform_congr _ hsame'] at hchunks hv
  refine ⟨v.closeDigest.emit .ok (sha1 ((sel.session key s).transform (cuts reads Q))), ?_⟩
  rw [List.nil_append] at hv
  simp only [decryptSequence, ask_ainit_of_length hkey, Reply.ok_andThen, hinit, hchunks, ask_hfinal hv]

/-! ### The statements -/

theorem chunks_lengths (X : List Byte) : (chunks X).map List.length =
    (List.range ((X.length + (chunkSize - 1)) / chunkSize)).map fun j => min chunkSize (X.length - chunkSize * j) := by
  simp [chunks, Function.comp_def]

/-- Where the segments end is a matter of the stream's length and the reads alone (R235). -/
theorem cuts_lengths_congr (reads : List Nat) {X Y : List Byte} (h : X.length = Y.length) :
    (cuts reads X).map List.length = (cuts reads Y).map List.length := by
  induction reads generalizing X Y with
  | nil => rw [cuts, cuts, chunks_lengths, chunks_lengths, h]
  | cons n reads ih =>
    have hrest : (X.drop (min n chunkSize)).length = (Y.drop (min n chunkSize)).length := by
      rw [List.length_drop, List.length_drop, h]
    rw [cuts, cuts, List.map_cons, List.map_cons, List.length_take, List.length_take, h, ih hrest]

/-- Settles O57: both sequences transform in sessions at the same place, and the second takes the first's mask out again; a wrong key
length is the AINIT's fault. -/
theorem pipelineRoundTrip : Obligations.PipelineRoundTrip := by
  constructor
  case left =>
    intro s s' sel sel' key pieces reads reads' hkey hvariant hparams hchunk hfits hlimit hcuts
    have hsame : SameSession (sel.session key s) (sel'.session key s') := sameSession_session key hvariant hparams
    obtain ⟨-, -, -, hAVAR⟩ := session_fields sel key s
    obtain ⟨t, henc⟩ := encryptSequence_ok (sel := sel) reads hkey hchunk hfits hlimit
    generalize hct : (sel.session key s).transform (cuts reads pieces.flatten) = ct at henc
    have hlen : ct.length = pieces.flatten.length := by rw [← hct, transform_length, flatten_cuts]
    obtain ⟨t', hdec⟩ :=
      decryptSequence_ok (sel := sel') (Q := ct) reads' hkey (hparams ▸ hchunk) (hlen.le.trans hlimit)
    have hundo : (sel'.session key s').transform (cuts reads' ct) = (cuts reads pieces.flatten).flatten := by
      refine transform_undo hsame (by rw [flatten_cuts, hct]) ?_
      rwa [hAVAR, cuts_lengths_congr reads' hlen]
    rw [hundo, flatten_cuts] at hdec
    exact ⟨ct, t, t', henc, hlen, hdec⟩
  case right =>
    intro s sel key Q pieces reads hkey hfits hlimit
    obtain ⟨t, hhash, -⟩ := hashPass_ok hfits hlimit
    refine ⟨⟨t, hhash, ?encrypt⟩, ?decrypt⟩
    case encrypt => simp only [encryptSequence, hhash, Reply.ok_andThen, ask_ainit_of_wrong_length hkey, Reply.aborted_andThen]
    case decrypt => simp only [decryptSequence, ask_ainit_of_wrong_length hkey, Reply.aborted_andThen]

/-- Settles O58: streams of one length are cut at the same places, so one mask is combined with both. -/
theorem tamperingFlipsSameBits : Obligations.TamperingFlipsSameBits := by
  intro s sel key Q Q' reads hkey hchunk hlen hlimit
  obtain ⟨t, hdec⟩ := decryptSequence_ok (sel := sel) reads hkey hchunk hlimit
  obtain ⟨t', hdec'⟩ := decryptSequence_ok (sel := sel) reads hkey hchunk (hlen ▸ hlimit)
  refine ⟨_, _, t, t', hdec, hdec', by simp, by simp, ?_⟩
  have hmask : ((cuts reads Q).map List.length).sum = Q.length := by rw [← List.length_flatten, flatten_cuts]
  simp only [State.transform, flatten_cuts, ← cuts_lengths_congr reads hlen]
  exact xorBytes_same_mask (by rw [sessionMask_length, hmask]) (by rw [sessionMask_length, hmask, hlen])

end Sys2Proof.Machine
end

section
/-! PROOF. The faults of 60_exceptions (R250 to R261): which fault a command raises, and that its answer is all it writes. -/

namespace Sys2Proof.Machine

/-! ### Which fault a command raises -/

/-- The fault of the first check that fails (R90, R258): the length, the state precondition, then what the command itself finds. -/
def firstFault (lenOk : Bool) (lenFault : Status) (ready : Bool) (own : Option Status) : Option Status :=
  if lenOk then (if ready then own else some .notInitialised) else some lenFault

theorem firstFault_eq_some_iff {lenOk ready : Bool} {lenFault st : Status} {own : Option Status} :
    firstFault lenOk lenFault ready own = some st ↔
      (lenOk = false ∧ lenFault = st) ∨ (lenOk = true ∧ ready = false ∧ Status.notInitialised = st) ∨
      (lenOk = true ∧ ready = true ∧ own = some st) := by
  cases lenOk <;> cases ready <;> simp [firstFault]

/-- The fault a command raises in a state, if any (R91, R92); HUPDATE alone has a fault of its own, the message limit (R209). -/
def faultOf (s : State) : Instr → Option Status
  | .keyinit inp | .ainitP inp | .ainitH inp | .ainitH2 inp => firstFault (lenIsBlock inp) .configurationError true none
  | .encblk inp | .decblk inp => firstFault (lenIsBlock inp) .lengthError s.KVALID none
  | .nsinit inp => firstFault (lenFits inp s) .lengthError true none
  | .scramble inp | .unscramble inp => firstFault (lenFits inp s) .lengthError s.TVALID none
  | .xform inp => firstFault (lenFits inp s) .lengthError s.AVALID none
  | .hinit inp => firstFault (lenIsZero inp) .lengthError true none
  | .hupdate inp =>
    firstFault (lenFits inp s) .lengthError (hashActive s)
      (if hmaxlen < s.HLEN.toNat + inp.length then some .lengthError else none)
  | .hfinal inp => firstFault (lenIsZero inp) .lengthError (hashActive s) none

/-- The answer of a command started in `s` (R259): a fault is answered with an empty payload and writes nothing; a command performed
answers OK, and what it writes, `u`, leaves the ports alone. -/
inductive Answers (s : State) : Option Status → Result → Prop
  | faulted (f : Status) : Answers s (some f) (.next (s.emit f []))
  | performed {u : State} {out : List Byte} (hcmd : u.cmdIn = s.cmdIn) (hresp : u.respOut = s.respOut) :
      Answers s none (.next (u.emit .ok out))

theorem guarded_answers {lenOk ready : Bool} {lenFault : Status} {own : Option Status} {perform : State → Result} {s : State}
    (h : Answers s own (perform s)) :
    Answers s (firstFault lenOk lenFault ready own) (guarded lenOk lenFault ready perform s) := by
  cases lenOk with
  | false => exact .faulted lenFault
  | true =>
    cases ready with
    | false => exact .faulted .notInitialised
    | true => exact h

/-- HUPDATE past its first two checks (R202, R209). -/
theorem updateSteps_answers (inp : List Byte) (s : State) :
    Answers s (if hmaxlen < s.HLEN.toNat + inp.length then some .lengthError else none) (updateSteps inp s) := by
  rw [updateSteps_extendDigest]
  split
  case isTrue => exact .faulted .lengthError
  case isFalse => exact .performed rfl rfl

/-- Every command answers, with the fault it raises or with OK (R259). -/
theorem exec_answers (i : Instr) (s : State) : Answers s (faultOf s i) (exec i s) := by
  cases i with
  | keyinit inp => rw [exec_keyinit]; exact guarded_answers (.performed rfl rfl)
  | encblk inp => rw [exec_encblk]; exact guarded_answers (.performed rfl rfl)
  | decblk inp => rw [exec_decblk]; exact guarded_answers (.performed rfl rfl)
  | nsinit inp => rw [exec_nsinit]; exact guarded_answers (.performed (by simp) (by simp))
  | scramble inp => rw [exec_scramble]; exact guarded_answers (.performed rfl rfl)
  | unscramble inp => rw [exec_unscramble]; exact guarded_answers (.performed rfl rfl)
  | ainitP inp => rw [exec_ainitP]; exact guarded_answers (.performed rfl rfl)
  | ainitH inp => rw [exec_ainitH]; exact guarded_answers (.performed rfl rfl)
  | ainitH2 inp => rw [exec_ainitH2]; exact guarded_answers (.performed rfl rfl)
  | xform inp => rw [exec_xform]; exact guarded_answers (.performed (by rw [nextKS_state]) (by rw [nextKS_state]))
  | hinit inp => rw [exec_hinit]; exact guarded_answers (.performed rfl rfl)
  | hupdate inp => rw [exec_hupdate]; exact guarded_answers (updateSteps_answers inp s)
  | hfinal inp => rw [exec_hfinal]; exact guarded_answers (.performed rfl rfl)

/-- A command answers with a status other than OK exactly when it raises that fault. -/
theorem answersWith_iff_fault {i : Instr} {s t : State} {st : Status} (h : exec i s = .next t) (hst : st ≠ .ok) :
    AnswersWith st s t ↔ faultOf s i = some st := by
  have hanswer := exec_answers i s
  rw [h] at hanswer
  generalize faultOf s i = fault at hanswer ⊢
  cases hanswer with
  | faulted f => simp [answersWith_emit]
  | performed _ hresp => simp [answersWith_emit hresp, hst.symm]

/-- Settles O10: only the length check of KEYINIT and the AINITs has this fault. -/
theorem configurationErrorIsWrongKeyLength : Obligations.ConfigurationErrorIsWrongKeyLength := by
  intro i s t h
  refine (answersWith_iff_fault (st := .configurationError) h nofun).trans ?_
  cases i with
  | keyinit | ainitP | ainitH | ainitH2 => simp [faultOf, firstFault_eq_some_iff]
  | encblk | decblk | nsinit | scramble | unscramble | xform | hinit | hupdate | hfinal =>
    simp [faultOf, firstFault_eq_some_iff]

/-- Settles O11: the length check of every other command has this fault, and the message limit, which is tested where the length is
allowed. -/
theorem lengthErrorIsWrongLength : Obligations.LengthErrorIsWrongLength := by
  intro i s t h
  refine (answersWith_iff_fault (st := .lengthError) h nofun).trans ?_
  cases i with
  | hupdate inp =>
    change _ ↔ s.params.MAXSEG < inp.length ∨ (s.HSTATE = .active ∧ hmaxlen < s.HLEN.toNat + inp.length)
    by_cases hlen : s.params.MAXSEG < inp.length
    · simp [faultOf, firstFault_eq_some_iff, hlen]
    · simp [faultOf, firstFault_eq_some_iff, hlen, not_lt.mp hlen]
  | keyinit | ainitP | ainitH | ainitH2 => simp [faultOf, firstFault_eq_some_iff]
  | encblk | decblk | nsinit | scramble | unscramble | xform | hinit | hfinal => simp [faultOf, firstFault_eq_some_iff]

/-! ### Steps -/

/-- A step that takes a frame answers it, legal or not, in the state without that frame (R88, R89). -/
theorem step_answers_of_frame {s : State} {cw : Word} {inp rest : List Byte} (hreset : s.RESET = false)
    (hframe : takeFrame s.cmdIn = some (cw, inp, rest)) : ∃ fault, Answers (s.withCmdIn rest) fault (step s) := by
  cases hc : decodeCommand cw inp with
  | none =>
    rw [step_of_illegal hreset (decode_of_illegal_frame hframe hc)]
    exact ⟨_, .faulted .illegalCommand⟩
  | some i =>
    rw [step_of_command hreset (decode_of_command_frame hframe hc)]
    exact ⟨_, exec_answers i _⟩

/-- Settles O9: the step answers the frame it takes, and a fault's answer is all it writes. -/
theorem faultsWriteNothing : Obligations.FaultsWriteNothing := by
  intro s cw inp rest hreset hframe
  obtain ⟨fault, hanswer⟩ := step_answers_of_frame hreset hframe
  generalize step s = result at hanswer ⊢
  cases hanswer with
  | faulted f => exact ⟨f, [], _, rfl, rfl, rfl, fun _ => ⟨rfl, rfl⟩⟩
  | performed hcmd hresp => exact ⟨.ok, _, _, rfl, hcmd, by rw [State.emit_respOut, hresp]; rfl, (absurd rfl ·)⟩

/-- Settles O8: a step resets, waits for a whole frame, or answers the frame it takes. -/
theorem coreNeverStops : Obligations.CoreNeverStops := by
  intro s
  cases hreset : s.RESET with
  | true => exact ⟨_, step_of_reset hreset⟩
  | false =>
    cases hframe : takeFrame s.cmdIn with
    | none => exact ⟨_, step_of_incomplete hreset (decode_of_no_frame hframe)⟩
    | some frame =>
      obtain ⟨cw, inp, rest⟩ := frame
      obtain ⟨-, -, t, hstep, -⟩ := faultsWriteNothing s cw inp rest hreset hframe
      exact ⟨t, hstep⟩

end Sys2Proof.Machine
end

section
/-! PROOF. The reset input and the hazards of 70 (R280, R287): what ends a session, and what then answers the next XFORM. -/

namespace Sys2Proof.Machine

/-! ### The reset input -/

/-- Settles O56: the step is the reset's, whatever is on the command port. -/
theorem resetInputClearsFlags : Obligations.ResetInputClearsFlags :=
  fun s hreset => ⟨s.applyReset, step_of_reset hreset, rfl, rfl, rfl, rfl, rfl, rfl, rfl⟩

/-! ### Re-keying under an open session -/

/-- Only AINIT opens a session (R40, R177). -/
theorem closed_of_exec {i : Instr} {s t : State} (hi : i.isAinit = false) (hclosed : s.AVALID = false)
    (h : exec i s = .next t) : t.AVALID = false := by
  obtain ⟨-, -, hopened, -⟩ := onlyAdapterCommandsWriteSession i s t h
  refine Bool.eq_false_iff.mpr fun hopen => ?_
  obtain ⟨key, -, hmem⟩ := hopened hclosed hopen
  have hainit : ∀ j ∈ [Instr.ainitP key, .ainitH key, .ainitH2 key], j.isAinit = true := by simp [Instr.isAinit]
  exact Bool.false_ne_true (hi.symm.trans (hainit i hmem))

/-- A run without an AINIT leaves a closed session closed, and the parameters as they are. -/
theorem closed_of_runTo {cmds : List Instr} {s t : State} (hcmds : ∀ i ∈ cmds, i.isAinit = false)
    (hclosed : s.AVALID = false) (hrun : RunTo s cmds t) : t.AVALID = false ∧ t.params = s.params := by
  induction cmds generalizing s with
  | nil =>
    obtain rfl : s = t := hrun
    exact ⟨hclosed, rfl⟩
  | cons i cmds ih =>
    obtain ⟨u, hexec, hrest⟩ := hrun
    obtain ⟨hi, hcmds⟩ := List.forall_mem_cons.mp hcmds
    obtain ⟨hend, hparams⟩ := ih hcmds (closed_of_exec hi hclosed hexec) hrest
    exact ⟨hend, hparams.trans (effect_params (exec_effect hexec))⟩

/-- A KEYINIT or NSINIT that passes its length check clears AVALID and keeps the parameters (R115, R154). -/
theorem closed_of_rekeying {s t : State} {key : List Byte}
    (h : (key.length = 16 ∧ exec (.keyinit key) s = .next t) ∨
      (key.length ≤ s.params.MAXSEG ∧ exec (.nsinit key) s = .next t)) :
    t.AVALID = false ∧ t.params = s.params := by
  obtain ⟨hlen, hexec⟩ | ⟨hlen, hexec⟩ := h
  · obtain rfl := Host.Outcome.next.inj ((keyinitBuildsSchedule s key hlen).symm.trans hexec)
    exact ⟨rfl, rfl⟩
  · obtain rfl := Host.Outcome.next.inj ((nsinitBuildsTable s key hlen).symm.trans hexec)
    exact ⟨rfl, rfl⟩

/-- XFORM of an allowed length without a session raises NotInitialised (R92). -/
theorem exec_xform_of_closed {s : State} {inp : List Byte} (hlen : inp.length ≤ s.params.MAXSEG)
    (hclosed : s.AVALID = false) : exec (.xform inp) s = .next (s.emit .notInitialised []) := by
  rw [exec_xform, lenFits_eq_true.mpr hlen, hclosed, guarded_of_not_ready]

/-- Settles O38: the new key or table closes the session, no other command but AINIT opens one, and XFORM needs one. -/
theorem rekeyingEndsSession : Obligations.RekeyingEndsSession := by
  intro s t u key inp cmds hlen hrekeyed hcmds hrun
  obtain ⟨hclosed, hparams⟩ := closed_of_rekeying hrekeyed
  obtain ⟨hclosed', hparams'⟩ := closed_of_runTo hcmds hclosed hrun
  rw [← hparams, ← hparams'] at hlen
  exact ⟨hclosed, exec_xform_of_closed hlen hclosed'⟩

end Sys2Proof.Machine
end
